-- ==== Sys2Proof/Word.lean ====
section
/-! DEFINITION. The bit type and the sum/carry pair (00_scope.md R10, R20).

Vectors are `BitVec N`; the source index `V[i]` of R11 (index 0 is the most significant bit) is read by
`Sys2Proof.elem` in Decode.lean. -/

namespace Sys2Proof

/-- A bit, R10: `true` is 1, `false` is 0. `Bool.toNat` is its integer value. -/
abbrev Bit := Bool

/-- The output pair of a half or full adder over signals of type `α` (R20, SumResult). `α` is `Bit` for
values and `Nat` for gate levels (R133). -/
structure SumResult (α : Type) where
  /-- the sum output S -/
  sum : α
  /-- the carry output, C of a half adder and COUT of a full adder -/
  carry : α
  deriving DecidableEq, Repr

end Sys2Proof
end

