-- ==== Sys2Proof/Syntax.lean ====
section
/-! DEFINITION. Components, ports, instructions (one constructor per row of spec/opcode_table.json) and raw
applications as the host presents them. -/

namespace Sys2Proof

/-- The components a host can drive: the formats of 30_encoding.md R56, one constructor per component and
named width. -/
inductive Component where
  | nmosSwitch | pmosSwitch
  | gateNot | gateNand | gateAnd | gateOr | gateNor | gateXor
  | halfAdder | fullAdder
  | carryChain8 | carryChain16
  | rippleCarryAdder8 | rippleCarryAdder16
  | overflowDetector8 | overflowDetector16
  deriving DecidableEq, Repr

/-- The input ports of 10_state.md R28 to R36. -/
inductive PortName where
  /-- switch gate `G` (R28, R29) -/
  | g
  /-- switch source `S` (R28, R29) -/
  | s
  /-- first operand `A` -/
  | a
  /-- second operand `B` -/
  | b
  /-- carry-in `CIN` (R32, R33) -/
  | cin
  /-- conditioned second operand `X` of a chain (R33) -/
  | x
  /-- mode `M` of an adder (R34, R35) -/
  | m
  /-- carry vector `C` of a detector (R36) -/
  | c
  deriving DecidableEq, Repr

/-- The output ports of 10_state.md R28 to R36. -/
inductive OutPort where
  /-- output `Y` of a switch or gate -/
  | y
  /-- sum `S` -/
  | s
  /-- carry `C` of a half adder, carry vector `C` of a chain or adder -/
  | c
  /-- `COUT` of a full adder; of an adder the alias of `C[0]` -/
  | cout
  /-- overflow flag `V` of an adder or detector -/
  | v
  deriving DecidableEq, Repr

/-- One application of an operation of the opcode map (R60), with every operand port typed as bits. R61: every
term is a legal application, since every field is a bit or a vector of bits. -/
inductive Instr where
  /-- `NMOS`, R67 -/
  | nmos (g src : Bit)
  /-- `PMOS`, R68 -/
  | pmos (g src : Bit)
  /-- `NOT`, R72 -/
  | gateNot (a : Bit)
  /-- `NAND`, R73 -/
  | gateNand (a b : Bit)
  /-- `AND`, R74 -/
  | gateAnd (a b : Bit)
  /-- `OR`, R75 -/
  | gateOr (a b : Bit)
  /-- `NOR`, R76 -/
  | gateNor (a b : Bit)
  /-- `XOR`, R77 -/
  | gateXor (a b : Bit)
  /-- `HA`, R79 -/
  | halfAdd (a b : Bit)
  /-- `FA`, R81 -/
  | fullAdd (a b cin : Bit)
  /-- `CHAIN8`, R85 -/
  | chain8 (cin : Bit) (a x : BitVec 8)
  /-- `CHAIN16`, R86 -/
  | chain16 (cin : Bit) (a x : BitVec 16)
  /-- `ADD8`, R90: mode bit 0 -/
  | add8 (a b : BitVec 8)
  /-- `SUB8`, R91: mode bit 1 -/
  | sub8 (a b : BitVec 8)
  /-- `ADD16`, R92: mode bit 0 -/
  | add16 (a b : BitVec 16)
  /-- `SUB16`, R93: mode bit 1 -/
  | sub16 (a b : BitVec 16)
  /-- `OVF8`, R100 -/
  | ovf8 (c : BitVec 8)
  /-- `OVF16`, R101 -/
  | ovf16 (c : BitVec 16)
  deriving DecidableEq, Repr

/-- What a host presents to a component, before any validation: for each input port, in input-word order (R56,
R112), the elements presented on it, source index 0 first. Elements are integers and lengths are unchecked, as at
the boundary of R107 and R108. -/
structure Application where
  /-- the component the host drives -/
  component : Component
  /-- the elements presented on each port, in input-word order -/
  ports : List (List Int)
  deriving DecidableEq, Repr

/-- A packed input word `W` of R56 with the component it is driven on: what selects an operation (R60). -/
structure InputWord where
  /-- the component driven -/
  component : Component
  /-- the value of `W`, position 0 of weight 1 (R13) -/
  bits : Nat
  deriving DecidableEq, Repr

end Sys2Proof
end

