-- ==== Sys2Proof/Decode.lean ====
section
/-! DEFINITION. Input-word formats (30_encoding.md R56, R57), the opcode map (R60) as a decoder, its encoder, and
the reading of a bare word of spec/opcode_table.json. -/

namespace Sys2Proof

/-! ### Formats -/

/-- The input ports of a component with their widths, in input-word order, highest position first (R45, R56). -/
def Component.ports : Component → List (PortName × Nat)
  | .nmosSwitch => [(.g, 1), (.s, 1)]
  | .pmosSwitch => [(.g, 1), (.s, 1)]
  | .gateNot => [(.a, 1)]
  | .gateNand => [(.a, 1), (.b, 1)]
  | .gateAnd => [(.a, 1), (.b, 1)]
  | .gateOr => [(.a, 1), (.b, 1)]
  | .gateNor => [(.a, 1), (.b, 1)]
  | .gateXor => [(.a, 1), (.b, 1)]
  | .halfAdder => [(.a, 1), (.b, 1)]
  | .fullAdder => [(.a, 1), (.b, 1), (.cin, 1)]
  | .carryChain8 => [(.cin, 1), (.a, 8), (.x, 8)]
  | .carryChain16 => [(.cin, 1), (.a, 16), (.x, 16)]
  | .rippleCarryAdder8 => [(.m, 1), (.a, 8), (.b, 8)]
  | .rippleCarryAdder16 => [(.m, 1), (.a, 16), (.b, 16)]
  | .overflowDetector8 => [(.c, 8)]
  | .overflowDetector16 => [(.c, 16)]

/-- The output ports of a component with their widths (R28 to R36, R45). COUT of an adder is a second name of the
net `C[0]` (R34, R35). -/
def Component.outPorts : Component → List (OutPort × Nat)
  | .nmosSwitch | .pmosSwitch => [(.y, 1)]
  | .gateNot | .gateNand | .gateAnd | .gateOr | .gateNor | .gateXor => [(.y, 1)]
  | .halfAdder => [(.s, 1), (.c, 1)]
  | .fullAdder => [(.s, 1), (.cout, 1)]
  | .carryChain8 => [(.s, 8), (.c, 8)]
  | .carryChain16 => [(.s, 16), (.c, 16)]
  | .rippleCarryAdder8 => [(.s, 8), (.c, 8), (.cout, 1), (.v, 1)]
  | .rippleCarryAdder16 => [(.s, 16), (.c, 16), (.cout, 1), (.v, 1)]
  | .overflowDetector8 | .overflowDetector16 => [(.v, 1)]

/-- The width of a component's input word (R45, R56). -/
def Component.width (c : Component) : Nat := (c.ports.map Prod.snd).sum

/-- The width N of a vector component; `none` for a switch, a gate or a one-bit adder. The vector components are
the ones behind the validating wrapper (R109). -/
def Component.vectorWidth : Component → Option Nat
  | .nmosSwitch | .pmosSwitch => none
  | .gateNot | .gateNand | .gateAnd | .gateOr | .gateNor | .gateXor => none
  | .halfAdder | .fullAdder => none
  | .carryChain8 | .rippleCarryAdder8 | .overflowDetector8 => some 8
  | .carryChain16 | .rippleCarryAdder16 | .overflowDetector16 => some 16

/-- A presented element is a bit (R10, R107). -/
def isBit (e : Int) : Bool := e == 0 || e == 1

/-! ### Indexing -/

/-- The source index of R11: `V[i]`, index 0 the most significant bit of an N-bit vector; 0 for an index that is
no index of `V`. -/
def elem {n : Nat} (v : BitVec n) (i : Nat) : Bit := decide (i < n) && v.getLsbD (n - 1 - i)

/-- `W[p]` of R13: the bit of a packed word at position p. -/
def wordBit (w p : Nat) : Bit := w.testBit p

/-- `W[lo+n-1 : lo]` of R13 as a vector port (R57: the port's index 0 is at the highest position). -/
def wordField (w lo n : Nat) : BitVec n := BitVec.ofNat n (w >>> lo)

/-! ### The decoder -/

/-- The operation and operands of a word of the component's format (R56, R60). -/
def decodeFields (c : Component) (w : Nat) : Instr :=
  match c with
  | .nmosSwitch => .nmos (wordBit w 1) (wordBit w 0)
  | .pmosSwitch => .pmos (wordBit w 1) (wordBit w 0)
  | .gateNot => .gateNot (wordBit w 0)
  | .gateNand => .gateNand (wordBit w 1) (wordBit w 0)
  | .gateAnd => .gateAnd (wordBit w 1) (wordBit w 0)
  | .gateOr => .gateOr (wordBit w 1) (wordBit w 0)
  | .gateNor => .gateNor (wordBit w 1) (wordBit w 0)
  | .gateXor => .gateXor (wordBit w 1) (wordBit w 0)
  | .halfAdder => .halfAdd (wordBit w 1) (wordBit w 0)
  | .fullAdder => .fullAdd (wordBit w 2) (wordBit w 1) (wordBit w 0)
  | .carryChain8 => .chain8 (wordBit w 16) (wordField w 8 8) (wordField w 0 8)
  | .carryChain16 => .chain16 (wordBit w 32) (wordField w 16 16) (wordField w 0 16)
  | .rippleCarryAdder8 =>
    if wordBit w 16 then .sub8 (wordField w 8 8) (wordField w 0 8)
    else .add8 (wordField w 8 8) (wordField w 0 8)
  | .rippleCarryAdder16 =>
    if wordBit w 32 then .sub16 (wordField w 16 16) (wordField w 0 16)
    else .add16 (wordField w 16 16) (wordField w 0 16)
  | .overflowDetector8 => .ovf8 (wordField w 0 8)
  | .overflowDetector16 => .ovf16 (wordField w 0 16)

/-- Why a word does not decode. -/
inductive DecodeError where
  /-- The word has a 1 above the format's width, so it is no word of R56 for this component (R61, R62; log 8). -/
  | wordOutsideFormat (c : Component) (w : Nat)
  deriving DecidableEq, Repr

/-- R60: a word of the format's width decodes to exactly one operation; a wider word is no word of the format. -/
def decode (c : Component) (w : Nat) : Except DecodeError Instr :=
  if w < 2 ^ c.width then .ok (decodeFields c w) else .error (.wordOutsideFormat c w)

/-! ### The encoder -/

/-- The input word of an instruction, each pattern of R56 written highest position first. -/
def encode : Instr → InputWord
  | .nmos g src => ⟨.nmosSwitch, (BitVec.ofBool g ++ BitVec.ofBool src).toNat⟩
  | .pmos g src => ⟨.pmosSwitch, (BitVec.ofBool g ++ BitVec.ofBool src).toNat⟩
  | .gateNot a => ⟨.gateNot, (BitVec.ofBool a).toNat⟩
  | .gateNand a b => ⟨.gateNand, (BitVec.ofBool a ++ BitVec.ofBool b).toNat⟩
  | .gateAnd a b => ⟨.gateAnd, (BitVec.ofBool a ++ BitVec.ofBool b).toNat⟩
  | .gateOr a b => ⟨.gateOr, (BitVec.ofBool a ++ BitVec.ofBool b).toNat⟩
  | .gateNor a b => ⟨.gateNor, (BitVec.ofBool a ++ BitVec.ofBool b).toNat⟩
  | .gateXor a b => ⟨.gateXor, (BitVec.ofBool a ++ BitVec.ofBool b).toNat⟩
  | .halfAdd a b => ⟨.halfAdder, (BitVec.ofBool a ++ BitVec.ofBool b).toNat⟩
  | .fullAdd a b cin => ⟨.fullAdder, (BitVec.ofBool a ++ BitVec.ofBool b ++ BitVec.ofBool cin).toNat⟩
  | .chain8 cin a x => ⟨.carryChain8, (BitVec.ofBool cin ++ a ++ x).toNat⟩
  | .chain16 cin a x => ⟨.carryChain16, (BitVec.ofBool cin ++ a ++ x).toNat⟩
  | .add8 a b => ⟨.rippleCarryAdder8, (BitVec.ofBool false ++ a ++ b).toNat⟩
  | .sub8 a b => ⟨.rippleCarryAdder8, (BitVec.ofBool true ++ a ++ b).toNat⟩
  | .add16 a b => ⟨.rippleCarryAdder16, (BitVec.ofBool false ++ a ++ b).toNat⟩
  | .sub16 a b => ⟨.rippleCarryAdder16, (BitVec.ofBool true ++ a ++ b).toNat⟩
  | .ovf8 c => ⟨.overflowDetector8, c.toNat⟩
  | .ovf16 c => ⟨.overflowDetector16, c.toNat⟩

/-! ### A bare word of the opcode table -/

/-- The component a bare word of spec/opcode_table.json is read on. DESIGN CHOICE (log 5): R60 selects the
operation by the component the host drives, which is no bit of the word, and most rows match any word, so several
rows share every word. Among the formats whose width fills `nbits` (in whole bytes) the model takes the narrowest
that holds the word; at the same width a component whose rows have a mask (the adders), else the table's first. -/
def tableComponent (nbits w : Nat) : Option Component :=
  match (nbits + 7) / 8 with
  | 1 =>
    if w < 2 then some .gateNot
    else if w < 4 then some .nmosSwitch
    else if w < 8 then some .fullAdder
    else some .overflowDetector8
  | 2 => some .overflowDetector16
  | 3 => some .rippleCarryAdder8
  | 5 => some .rippleCarryAdder16
  | _ => none

/-- The instruction the decoder reads from a bare word of the table, on the component of `tableComponent`. -/
def decodeTableWord (nbits w : Nat) : Option Instr :=
  match tableComponent nbits w with
  | some c =>
    match decode c w with
    | .ok i => some i
    | .error _ => none
  | none => none

end Sys2Proof
end

