-- ==== Sys2Proof/Config.lean ====
section
/-! DEFINITION. The implementation parameters of 00_scope.md R8.

`GATE_STRATEGY` is OPEN; its value stands in `Machine.State.gateStrategy`, where nothing constrains it
(assumption log 2). `T_SETTLE` is OPEN and no rule reads it (log 3). The other parameters of R8 are fixed for
this hardware and are fixed in the definitions: N is 8 or 16 and N_chain = N (the width a meaning instantiates),
HAS_MODE = yes (SUB8 and SUB16 exist), EXPOSE_CARRY_VECTOR = yes (`Output.rca8`, `Output.rca16` hold C),
INPUT_POLICY = reject (`Machine.validate` faults and never clamps). -/

namespace Sys2Proof

/-- `GATE_STRATEGY`, R71: how every gate of an application is built. -/
inductive GateStrategy where
  /-- "direct boolean algebra" -/
  | direct
  /-- "transistor-composed logic built only from nmos, pmos, not and nand" -/
  | transistor
  deriving DecidableEq, Repr

/-- `T_SETTLE`, R8 and R130: the settle time of an application. It has no body: the spec gives no bound and no
rule depends on it. The model is zero-delay and does not read it (log 3). -/
opaque Config.tSettle : Nat

end Sys2Proof
end

