-- ==== Sys2Proof/Machine/State.lean ====
section
/-! DEFINITION. The output ports, the faults and refusals, the state and the machine right after reset.

The block stores nothing (10_state.md R21 to R26, R40): State holds the input ports the host drives, the output
ports of the driven component, and the open parameter GATE_STRATEGY. Its two port fields are the interface of one
application (assumption log 1), and `gateStrategy` is the model's own field (log 2). -/

namespace Sys2Proof.Machine

/-- The settled output ports of a component, one constructor per output format of 30_encoding.md R58. COUT of an
adder is an alias of `C[0]` (R83) and is read by `carryOut`. -/
inductive Output where
  /-- `O_1` of a switch or gate -/
  | one (y : Bit)
  /-- `O_1` of a detector -/
  | ovf (v : Bit)
  /-- `O_HA` -/
  | ha (c s : Bit)
  /-- `O_FA` -/
  | fa (cout s : Bit)
  /-- `O_CH_8` -/
  | chain8 (c s : BitVec 8)
  /-- `O_CH_16` -/
  | chain16 (c s : BitVec 16)
  /-- `O_RCA_8` -/
  | rca8 (v : Bit) (c s : BitVec 8)
  /-- `O_RCA_16` -/
  | rca16 (v : Bit) (c s : BitVec 16)
  deriving DecidableEq, Repr

/-- The two faults of 60_exceptions.md R106. A faulted application drives no output (R110). -/
inductive Fault where
  /-- `InvalidBitValue`, code 1: an element at the boundary of a vector component is not 0 or 1; with the port,
  the source index and the offending value. Raised by `validate` (R107). Safe: it is the spec's own outcome and no
  value is computed. -/
  | invalidBitValue (port : PortName) (index : Nat) (value : Int)
  /-- `WidthMismatch`, code 2: a vector operand whose length is not N, or a one-bit port M or CIN of other than
  one element; with N and the lengths of the vector operands in port order. Raised by `validate` (R108). Safe: it
  is the spec's own outcome and no value is computed. -/
  | widthMismatch (n : Nat) (lengths : List Nat)
  deriving DecidableEq, Repr

/-- What the model gives no meaning to (R15, R111). -/
inductive Refusal where
  /-- An arm of `exec` without a meaning. No arm raises it: every row of the table has its meaning. Safe. -/
  | notModelled (mnemonic : String)
  /-- `NonBitBelowBoundary`, R70 and R111: a non-bit value at a switch, gate or one-bit adder. Raised by
  `validate`. Safe: no output is computed. -/
  | nonBitBelowBoundary
  /-- A step while the host drives nothing: there is no application (R125, R126; log 4). Raised by `fetch`.
  Safe: there is nothing to observe. -/
  | noApplication
  /-- The host does not present every input port of the component, or does not present a one-bit port of a
  switch, gate or one-bit adder as one element: outside the host interface of R127 (R27, R45; log 7). Raised by
  `validate`. Safe: no output is computed. -/
  | incompleteInput
  /-- A word with a 1 above its format's width (R56, R62; log 8). Raised by `step` for a word that `decode`
  rejects; a word that `fetch` answers never is one. Safe: no output is computed. -/
  | wordOutsideFormat (c : Component) (w : Nat)
  /-- The host samples although no application has completed on the word it drives (R125, R130, R131; U7 to U9;
  log 6). Raised by `State.sample`. Safe: no value is observed. -/
  | notSettled
  deriving DecidableEq, Repr

/-- The ports of one application and the open gate strategy. -/
structure State where
  /-- The MODEL's own field: GATE_STRATEGY of R8, open; no step changes it (log 2). -/
  gateStrategy : GateStrategy
  /-- What the host drives on the input ports; `none` before it drives anything (R125, R126). -/
  driven : Option Application
  /-- The settled output ports of the driven component; `none` while no application on the driven inputs has
  completed, when no output is defined (R125, R130). -/
  outputs : Option Output
  deriving DecidableEq, Repr

/-- R124, R125: nothing to reset; nothing is driven and no output is defined. The gate strategy is the model's
DESIGN CHOICE (log 2). -/
def State.reset : State where
  gateStrategy := .direct
  driven := none
  outputs := none

end Sys2Proof.Machine
end

