-- ==== Sys2Proof/Machine/Ops.lean ====
section
/-! DEFINITION. The components as netlists: switches (40_transistor_switches.md), gates under both strategies
(41_gates.md), one-bit adders (42_adders_1bit.md), the ripple and the operand conditioning (43_ripple_carry.md);
and the one operation that completes an application.

The gates are a pluggable evaluator (R71): the adders are written once over any `GateEval`, so that the two
strategies and the gate levels of R133 evaluate the same netlist. -/

namespace Sys2Proof.Machine

/-! ### Switches -/

/-- `nmos_switch`, R67: on when G = 1; an on switch outputs S, an off switch 0 (R66). -/
def nmosSwitch (g src : Bit) : Bit := if g = true then src else false

/-- `pmos_switch`, R68: on when G = 0; an on switch outputs S, an off switch 0 (R66). -/
def pmosSwitch (g src : Bit) : Bit := if g = false then src else false

/-- The output node of several switches, R69: the boolean or of all of them, no gate of its own. -/
def outputNode (switches : List Bit) : Bit := switches.any id

/-! ### Gates -/

/-- The six gates of R30 over signals of type `α`. -/
structure GateEval (α : Type) where
  not : α → α
  nand : α → α → α
  and : α → α → α
  or : α → α → α
  nor : α → α → α
  xor : α → α → α

/-- R72, transistor-composed `not`. -/
def transistorNot (a : Bit) : Bit := outputNode [nmosSwitch a false, pmosSwitch a true]

/-- R73, transistor-composed `nand`: `n1`, `n2`, `pb`, `pa` of the rule. -/
def transistorNand (a b : Bit) : Bit :=
  let n1 := nmosSwitch b false
  let n2 := nmosSwitch a n1
  outputNode [n2, pmosSwitch b true, pmosSwitch a true]

/-- R74, transistor-composed `and`. -/
def transistorAnd (a b : Bit) : Bit :=
  let t := transistorNand a b
  transistorNand t t

/-- R75, transistor-composed `or`. -/
def transistorOr (a b : Bit) : Bit := transistorNand (transistorNand a a) (transistorNand b b)

/-- R76, transistor-composed `nor`. -/
def transistorNor (a b : Bit) : Bit := transistorNot (transistorOr a b)

/-- R77, transistor-composed `xor`. -/
def transistorXor (a b : Bit) : Bit := transistorAnd (transistorOr a b) (transistorNand a b)

/-- R72 to R77 under `direct`: boolean algebra, with `1 - x` as negation (R14). -/
def directGates : GateEval Bit where
  not a := !a
  nand a b := !(a && b)
  and a b := a && b
  or a b := a || b
  nor a b := !(a || b)
  xor a b := a ^^ b

/-- R72 to R77 under `transistor`: every gate inside a formula is itself transistor-composed (R71, C9). -/
def transistorGates : GateEval Bit where
  not := transistorNot
  nand := transistorNand
  and := transistorAnd
  or := transistorOr
  nor := transistorNor
  xor := transistorXor

/-- The gates of a strategy (R71). -/
def gatesOf : GateStrategy → GateEval Bit
  | .direct => directGates
  | .transistor => transistorGates

/-! ### One-bit adders -/

/-- `half_adder_1bit`, R79. -/
def halfAdder {α : Type} (e : GateEval α) (a b : α) : SumResult α :=
  ⟨e.xor a b, e.and a b⟩

/-- `full_adder_1bit`, R81: two chained half adders and an `or`. -/
def fullAdder {α : Type} (e : GateEval α) (a b cin : α) : SumResult α :=
  let h1 := halfAdder e a b
  let h2 := halfAdder e h1.sum cin
  ⟨h2.sum, e.or h1.carry h2.carry⟩

/-! ### The ripple -/

/-- The carry chain of R84 on operands listed from position N-1 (the LSB) to position 0: each position is one
full adder, fed by the carry out of the position before it (R83, R87). -/
def ripple {α : Type} (e : GateEval α) : List α → List α → α → List (SumResult α)
  | a :: as, x :: xs, cin =>
    let r := fullAdder e a x cin
    r :: ripple e as xs r.carry
  | _, _, _ => []

/-- R88: the conditioned operand `X[i] = xor(B[i], M)`. -/
def conditionOperand {α : Type} (e : GateEval α) (bs : List α) (m : α) : List α :=
  bs.map fun b => e.xor b m

/-- R88 and R89 on listed operands: condition B, then ripple with `CIN = M`. -/
def rippleAddSub {α : Type} (e : GateEval α) (as bs : List α) (m : α) : List (SumResult α) :=
  ripple e as (conditionOperand e bs m) m

/-! ### Completing an application -/

/-- An application ends normally: its settled outputs are on the output ports, and nothing else changes
(R46, R128). -/
def settle (o : Output) (s : State) : Host.Outcome State Fault Refusal :=
  .next { s with outputs := some o }

end Sys2Proof.Machine
end

