-- ==== Sys2Proof/Machine/Operands.lean ====
section
/-! DEFINITION. Vector ports as lists of nets and back (00_scope.md R11), words as presented elements
(30_encoding.md R56, R57) and the output words of R58. -/

namespace Sys2Proof.Machine

/-! ### Vectors as nets, in ripple order -/

/-- The elements of a vector in ripple order, `V[N-1]` (the LSB) first (R84). -/
def lsbBits {n : Nat} (v : BitVec n) : List Bit := (List.range n).map v.getLsbD

/-- The value of a list of bits, least significant first. -/
def lsbValue : List Bit → Nat
  | [] => 0
  | b :: bs => b.toNat + 2 * lsbValue bs

/-- The vector whose elements are listed in ripple order. -/
def ofLsbBits (n : Nat) (bs : List Bit) : BitVec n := BitVec.ofNat n (lsbValue bs)

/-! ### Words as bits, most significant first -/

/-- The bits of an n-bit word, highest position first, as R56 writes patterns. -/
def wordBits (n w : Nat) : List Bit := (List.range n).map fun k => wordBit w (n - 1 - k)

/-- The word whose bits are listed highest position first. -/
def packBits (bs : List Bit) : Nat := bs.foldl (fun acc b => 2 * acc + b.toNat) 0

/-- A bit as a presented element (R10). -/
def rawBit (b : Bit) : Int := if b then 1 else 0

/-- Cut a list into consecutive pieces of the given lengths. -/
def splitPorts {α : Type} : List Nat → List α → List (List α)
  | [], _ => []
  | n :: ns, l => l.take n :: splitPorts ns (l.drop n)

/-- A word of the component's format as presented on its ports (R56, R127): the high bits on the first port,
each vector's index 0 at the highest position of its field (R57). DESIGN CHOICE (log 12): a number wider than the
format is no word of it (R56, R98), and only its low `c.width` bits are presented. -/
def presentWord (c : Component) (w : Nat) : Application :=
  ⟨c, splitPorts (c.ports.map Prod.snd) ((wordBits c.width w).map rawBit)⟩

/-- The input word of presented elements that are all bits (R56). -/
def packPorts (ports : List (List Int)) : Nat := packBits (ports.flatten.map fun e => e == 1)

/-! ### Output ports and words -/

/-- The elements of a vector port, source index 0 first (R11). -/
def vectorElems {n : Nat} (v : BitVec n) : List Bit := (List.range n).map (elem v)

/-- What the host reads on an output port (R127), source index 0 first; `none` for a port the component does not
have (R28 to R36). COUT of an adder is the net `C[0]` (R34, R83). -/
def Output.read : Output → OutPort → Option (List Bit)
  | .one y, .y => some [y]
  | .ovf v, .v => some [v]
  | .ha _ s, .s => some [s]
  | .ha c _, .c => some [c]
  | .fa _ s, .s => some [s]
  | .fa cout _, .cout => some [cout]
  | .chain8 _ s, .s => some (vectorElems s)
  | .chain8 c _, .c => some (vectorElems c)
  | .chain16 _ s, .s => some (vectorElems s)
  | .chain16 c _, .c => some (vectorElems c)
  | .rca8 _ _ s, .s => some (vectorElems s)
  | .rca8 _ c _, .c => some (vectorElems c)
  | .rca8 _ c _, .cout => some [elem c 0]
  | .rca8 v _ _, .v => some [v]
  | .rca16 _ _ s, .s => some (vectorElems s)
  | .rca16 _ c _, .c => some (vectorElems c)
  | .rca16 _ c _, .cout => some [elem c 0]
  | .rca16 v _ _, .v => some [v]
  | _, _ => none

/-- The width of an output word (R45, R58). -/
def Output.width : Output → Nat
  | .one _ => 1
  | .ovf _ => 1
  | .ha _ _ => 2
  | .fa _ _ => 2
  | .chain8 _ _ => 16
  | .chain16 _ _ => 32
  | .rca8 _ _ _ => 17
  | .rca16 _ _ _ => 33

/-- The output word O, each pattern of R58 written highest position first. -/
def Output.word : Output → Nat
  | .one y => (BitVec.ofBool y).toNat
  | .ovf v => (BitVec.ofBool v).toNat
  | .ha c s => (BitVec.ofBool c ++ BitVec.ofBool s).toNat
  | .fa cout s => (BitVec.ofBool cout ++ BitVec.ofBool s).toNat
  | .chain8 c s => (c ++ s).toNat
  | .chain16 c s => (c ++ s).toNat
  | .rca8 v c s => (BitVec.ofBool v ++ c ++ s).toNat
  | .rca16 v c s => (BitVec.ofBool v ++ c ++ s).toNat

end Sys2Proof.Machine
end

