-- ==== Sys2Proof/Machine/Boundary.lean ====
section
/-! DEFINITION. The host's side of an application: driving the input ports, the validating wrapper of
60_exceptions.md R106 to R112, the reading of the driven input word, and sampling (70_reset_and_hazards.md
R127). -/

namespace Sys2Proof.Machine

/-! ### Faults -/

/-- The fault codes of R106. -/
def Fault.code : Fault → Nat
  | .invalidBitValue _ _ _ => 1
  | .widthMismatch _ _ => 2

/-- R107 inside one port: the first element, from source index `i` on, that is not a bit. -/
def firstNonBitFrom (port : PortName) (i : Nat) : List Int → Option Fault
  | [] => none
  | e :: es => if isBit e then firstNonBitFrom port (i + 1) es else some (.invalidBitValue port i e)

/-- R107 over the ports in the order of R112: the first element that is not a bit. -/
def firstNonBit : List PortName → List (List Int) → Option Fault
  | p :: ps, es :: rest =>
    match firstNonBitFrom p 0 es with
    | some f => some f
    | none => firstNonBit ps rest
  | _, _ => none

/-- The lengths R108 records: those of the vector operands, in port order. -/
def vectorLengths (c : Component) (ports : List (List Int)) : List Nat :=
  ((c.ports.zip ports).filter fun p => p.1.2 ≠ 1).map fun p => p.2.length

/-- Every port of the component has its width (R45, R108). -/
def lengthsFit (c : Component) (ports : List (List Int)) : Bool :=
  ports.map List.length == c.ports.map Prod.snd

/-- The boundary of an application. A vector component validates: WidthMismatch first, then InvalidBitValue
(R107, R108, R112). A one-bit component has no wrapper (R109): a non-bit there is refused (R70, R111). A missing
or extra port, or a one-bit component's port that is not one element, is no application of R127 (log 7). -/
def validate (a : Application) : Host.Outcome InputWord Fault Refusal :=
  if a.ports.length ≠ a.component.ports.length then .refused .incompleteInput
  else
    match a.component.vectorWidth with
    | some n =>
      if lengthsFit a.component a.ports then
        match firstNonBit (a.component.ports.map Prod.fst) a.ports with
        | some f => .fault f
        | none => .next ⟨a.component, packPorts a.ports⟩
      else .fault (.widthMismatch n (vectorLengths a.component a.ports))
    | none =>
      if lengthsFit a.component a.ports then
        if a.ports.all fun p => p.all isBit then .next ⟨a.component, packPorts a.ports⟩
        else .refused .nonBitBelowBoundary
      else .refused .incompleteInput

/-! ### The host interface -/

/-- The host drives a component's input ports. Any earlier application that has not been sampled is abandoned
(R131), and no output is defined until the new one completes (R125). -/
def State.drive (s : State) (a : Application) : State :=
  { s with driven := some a, outputs := none }

/-- The host drives one complete input word on a component (R127, apply). Of a number wider than the component's
format only the low bits are driven, by `presentWord`: DESIGN CHOICE (log 12). -/
def State.driveWord (s : State) (c : Component) (w : Nat) : State := s.drive (presentWord c w)

/-- The host drives nothing: the situation of R125. -/
def State.undrive (s : State) : State := { s with driven := none, outputs := none }

/-- The host samples the settled outputs (R127). Before an application on the driven inputs has completed there
is nothing to observe (R125, R130; U7 to U9). -/
def State.sample (s : State) : Host.Outcome Output Fault Refusal :=
  match s.outputs with
  | some o => .next o
  | none => .refused .notSettled

/-- The input word that is driven on a component, after the boundary has accepted it. -/
def fetch (s : State) : Host.Outcome InputWord Fault Refusal :=
  match s.driven with
  | some a => validate a
  | none => .refused .noApplication

/-- Drive a bare word of the opcode table on the component it is read on (log 5); a word that no format of that
size holds is not driven. -/
def driveTableWord (s : State) (nbits w : Nat) : State :=
  match tableComponent nbits w with
  | some c => if w < 2 ^ c.width then s.driveWord c w else s.undrive
  | none => s.undrive

end Sys2Proof.Machine
end

