-- ==== Sys2Proof/Machine/Adders.lean ====
section
/-! DEFINITION. The meanings of the one-bit adders (42_adders_1bit.md). -/

namespace Sys2Proof.Machine

/-- `HA`, R79. -/
def execHalfAdd (a b : Bit) (s : State) : Host.Outcome State Fault Refusal :=
  let r := halfAdder (gatesOf s.gateStrategy) a b
  settle (.ha r.carry r.sum) s

/-- `FA`, R81. -/
def execFullAdd (a b cin : Bit) (s : State) : Host.Outcome State Fault Refusal :=
  let r := fullAdder (gatesOf s.gateStrategy) a b cin
  settle (.fa r.carry r.sum) s

end Sys2Proof.Machine
end

