-- ==== Sys2Proof/Machine/Gates.lean ====
section
/-! DEFINITION. The meanings of the six gates under the state's gate strategy (41_gates.md). -/

namespace Sys2Proof.Machine

/-- `NOT`, R72. -/
def execNot (a : Bit) (s : State) : Host.Outcome State Fault Refusal :=
  settle (.one ((gatesOf s.gateStrategy).not a)) s

/-- `NAND`, R73. -/
def execNand (a b : Bit) (s : State) : Host.Outcome State Fault Refusal :=
  settle (.one ((gatesOf s.gateStrategy).nand a b)) s

/-- `AND`, R74. -/
def execAnd (a b : Bit) (s : State) : Host.Outcome State Fault Refusal :=
  settle (.one ((gatesOf s.gateStrategy).and a b)) s

/-- `OR`, R75. -/
def execOr (a b : Bit) (s : State) : Host.Outcome State Fault Refusal :=
  settle (.one ((gatesOf s.gateStrategy).or a b)) s

/-- `NOR`, R76. -/
def execNor (a b : Bit) (s : State) : Host.Outcome State Fault Refusal :=
  settle (.one ((gatesOf s.gateStrategy).nor a b)) s

/-- `XOR`, R77. -/
def execXor (a b : Bit) (s : State) : Host.Outcome State Fault Refusal :=
  settle (.one ((gatesOf s.gateStrategy).xor a b)) s

end Sys2Proof.Machine
end

