-- ==== Sys2Proof/Machine/Observe.lean ====
section
/-! DEFINITION. The observation functions of 00_scope.md R16 to R19. They are not hardware (R7): statements are
made through them. -/

namespace Sys2Proof.Machine

/-- `Σ_{k<m} f k · 2^k`, the positional sum of R16 and R17. -/
def weightedSum (f : Nat → Bit) : Nat → Nat
  | 0 => 0
  | m + 1 => weightedSum f m + (f m).toNat * 2 ^ m

/-- `uval`, R16: `Σ_{k=0}^{N-1} V[N-1-k] · 2^k`. -/
def uval {n : Nat} (v : BitVec n) : Nat := weightedSum (fun k => elem v (n - 1 - k)) n

/-- `sval`, R17, the source's exact identity; element `V[i]` has weight `2^(N-1-i)`, so the sums over i = 1..N-1
run over the weights k = N-1-i below N-1. -/
def sval {n : Nat} (v : BitVec n) : Int :=
  if elem v 0 = false then (weightedSum (fun k => elem v (n - 1 - k)) (n - 1) : Int)
  else -(1 + (weightedSum (fun k => !elem v (n - 1 - k)) (n - 1) : Int))

/-- `bitvector_of`, R19: defined for `0 ≤ v ≤ 2^N - 1` and refused (`none`) elsewhere; it neither wraps nor
clamps. -/
def bitvectorOf (n : Nat) (v : Int) : Option (BitVec n) :=
  if 0 ≤ v ∧ v < 2 ^ n then some (BitVec.ofNat n v.toNat) else none

/-- Signed encoding of R19: `bitvector_of_N(v mod 2^N)` for `-2^(N-1) ≤ v ≤ 2^(N-1) - 1`, refused elsewhere. -/
def bitvectorOfSigned (n : Nat) (v : Int) : Option (BitVec n) :=
  if -(2 ^ (n - 1)) ≤ v ∧ v ≤ 2 ^ (n - 1) - 1 then bitvectorOf n (v % 2 ^ n) else none

/-! ### Terms the statements use -/

/-- The subvector `V[i..N-1]` of R11: the elements i to N-1, of width N-i. -/
def tailFrom {n : Nat} (v : BitVec n) (i : Nat) : BitVec (n - i) := v.setWidth (n - i)

/-- The carry into position i, R83: `C[i+1]` for i < N-1, and the chain's CIN for i = N-1. -/
def carryInto {n : Nat} (c : BitVec n) (cin : Bit) (i : Nat) : Bit :=
  if i = n - 1 then cin else elem c (i + 1)

/-- `S` and `C` are what a ripple of full adders gives at every position (R82, R84), said in integers:
`A[i] + X[i] + cin_i = 2·C[i] + S[i]`. It determines S and C. -/
def RipplesTo {n : Nat} (a x : BitVec n) (cin : Bit) (s c : BitVec n) : Prop :=
  ∀ i, i < n →
    (elem a i).toNat + (elem x i).toNat + (carryInto c cin i).toNat = 2 * (elem c i).toNat + (elem s i).toNat

/-- B with every bit inverted when m is 1 (R88): `X[i] = B[i] ⊕ M`. -/
def flippedBy {n : Nat} (b : BitVec n) (m : Bit) : BitVec n := if m then ~~~b else b

/-- The exact signed sum or difference T of R103. -/
def signedTarget {n : Nat} (a b : BitVec n) (m : Bit) : Int := if m then sval a - sval b else sval a + sval b

end Sys2Proof.Machine
end

