-- ==== Sys2Proof/Machine/Flags.lean ====
section
/-! DEFINITION. The flag outputs: COUT (43_ripple_carry.md R83) and V (44_overflow.md R99). None is stored
(10_state.md R23). -/

namespace Sys2Proof.Machine

/-- COUT, R83: the same net as `C[0]`. -/
def carryOut {n : Nat} (c : BitVec n) : Bit := elem c 0

/-- `overflow_detector`, R99: `xor(C[0], C[1])`, on the two carries themselves and on nothing else. -/
def overflowDetector {n : Nat} (e : GateEval Bit) (c : BitVec n) : Bit := e.xor (elem c 0) (elem c 1)

/-- RES of R58: `uval(S) + 2^N · COUT`, the source's N+1 bit result. -/
def fullResult {n : Nat} (s c : BitVec n) : Nat := uval s + 2 ^ n * (carryOut c).toNat

end Sys2Proof.Machine
end

