-- ==== Sys2Proof/Machine/Overflow.lean ====
section
/-! DEFINITION. The meanings of OVF8 and OVF16 (44_overflow.md). -/

namespace Sys2Proof.Machine

/-- `OVF8`, R100. -/
def execOvf8 (c : BitVec 8) (s : State) : Host.Outcome State Fault Refusal :=
  settle (.ovf (overflowDetector (gatesOf s.gateStrategy) c)) s

/-- `OVF16`, R101. -/
def execOvf16 (c : BitVec 16) (s : State) : Host.Outcome State Fault Refusal :=
  settle (.ovf (overflowDetector (gatesOf s.gateStrategy) c)) s

end Sys2Proof.Machine
end

