-- ==== Sys2Proof/Machine/Ripple.lean ====
section
/-! DEFINITION. `carry_chain` and the ripple-carry adder-subtractors of width N (43_ripple_carry.md R84, R89) and
the meanings of CHAIN8, CHAIN16, ADD8, SUB8, ADD16 and SUB16. Any N may be instantiated (00_scope.md R9); the
hardware has N = 8 and N = 16. -/

namespace Sys2Proof.Machine

/-- The output ports of a chain of width N (R33). -/
structure ChainPorts (n : Nat) where
  /-- the sum vector S -/
  sum : BitVec n
  /-- the carry vector C -/
  carries : BitVec n
  deriving DecidableEq, Repr

/-- The output ports of an adder-subtractor of width N (R34, R35); COUT is `carryOut carries`. -/
structure AdderPorts (n : Nat) where
  /-- the sum vector S -/
  sum : BitVec n
  /-- the carry vector C -/
  carries : BitVec n
  /-- the overflow flag V -/
  overflow : Bit
  deriving DecidableEq, Repr

/-- The vectors S and C of the full adders of a ripple, listed in ripple order. -/
def chainPortsOf (n : Nat) (rs : List (SumResult Bit)) : ChainPorts n :=
  ⟨ofLsbBits n (rs.map SumResult.sum), ofLsbBits n (rs.map SumResult.carry)⟩

/-- `carry_chain` of width N, R84. -/
def carryChain {n : Nat} (e : GateEval Bit) (a x : BitVec n) (cin : Bit) : ChainPorts n :=
  chainPortsOf n (ripple e (lsbBits a) (lsbBits x) cin)

/-- The conditioned second operand as a vector, R88. -/
def conditioned {n : Nat} (e : GateEval Bit) (b : BitVec n) (m : Bit) : BitVec n :=
  ofLsbBits n (conditionOperand e (lsbBits b) m)

/-- `ripple_carry_adder_N`, R89: condition, ripple with `CIN = M`, detect overflow on the same carries (R102). -/
def adderSubtractor {n : Nat} (e : GateEval Bit) (a b : BitVec n) (m : Bit) : AdderPorts n :=
  let r := chainPortsOf n (rippleAddSub e (lsbBits a) (lsbBits b) m)
  ⟨r.sum, r.carries, overflowDetector e r.carries⟩

/-- The source's plain `adder(A, B)`, R65 and R94: no conditioning, carry-in 0; it reports S and `C[0]`. -/
def plainAdder {n : Nat} (e : GateEval Bit) (a b : BitVec n) : BitVec n × Bit :=
  let r := carryChain e a b false
  (r.sum, carryOut r.carries)

/-- `CHAIN8`, R85. -/
def execChain8 (cin : Bit) (a x : BitVec 8) (s : State) : Host.Outcome State Fault Refusal :=
  let r := carryChain (gatesOf s.gateStrategy) a x cin
  settle (.chain8 r.carries r.sum) s

/-- `CHAIN16`, R86. -/
def execChain16 (cin : Bit) (a x : BitVec 16) (s : State) : Host.Outcome State Fault Refusal :=
  let r := carryChain (gatesOf s.gateStrategy) a x cin
  settle (.chain16 r.carries r.sum) s

/-- `ADD8`, R90: M = 0. -/
def execAdd8 (a b : BitVec 8) (s : State) : Host.Outcome State Fault Refusal :=
  let r := adderSubtractor (gatesOf s.gateStrategy) a b false
  settle (.rca8 r.overflow r.carries r.sum) s

/-- `SUB8`, R91: M = 1. -/
def execSub8 (a b : BitVec 8) (s : State) : Host.Outcome State Fault Refusal :=
  let r := adderSubtractor (gatesOf s.gateStrategy) a b true
  settle (.rca8 r.overflow r.carries r.sum) s

/-- `ADD16`, R92: M = 0. -/
def execAdd16 (a b : BitVec 16) (s : State) : Host.Outcome State Fault Refusal :=
  let r := adderSubtractor (gatesOf s.gateStrategy) a b false
  settle (.rca16 r.overflow r.carries r.sum) s

/-- `SUB16`, R93: M = 1. -/
def execSub16 (a b : BitVec 16) (s : State) : Host.Outcome State Fault Refusal :=
  let r := adderSubtractor (gatesOf s.gateStrategy) a b true
  settle (.rca16 r.overflow r.carries r.sum) s

end Sys2Proof.Machine
end

