-- ==== Sys2Proof/Machine/Switches.lean ====
section
/-! DEFINITION. The meanings of NMOS and PMOS (40_transistor_switches.md). -/

namespace Sys2Proof.Machine

/-- `NMOS`, R67. -/
def execNmos (g src : Bit) (s : State) : Host.Outcome State Fault Refusal :=
  settle (.one (nmosSwitch g src)) s

/-- `PMOS`, R68. -/
def execPmos (g src : Bit) (s : State) : Host.Outcome State Fault Refusal :=
  settle (.one (pmosSwitch g src)) s

end Sys2Proof.Machine
end

