-- ==== Sys2Proof/Machine/Dispatch.lean ====
section
/-! DEFINITION. The dispatch of 30_encoding.md R60: one arm per row of spec/opcode_table.json. -/

namespace Sys2Proof.Machine

def exec (i : Instr) (s : State) : Host.Outcome State Fault Refusal :=
  match i with
  | .nmos g src => Sys2Proof.Machine.execNmos g src s
  | .pmos g src => Sys2Proof.Machine.execPmos g src s
  | .gateNot a => Sys2Proof.Machine.execNot a s
  | .gateNand a b => Sys2Proof.Machine.execNand a b s
  | .gateAnd a b => Sys2Proof.Machine.execAnd a b s
  | .gateOr a b => Sys2Proof.Machine.execOr a b s
  | .gateNor a b => Sys2Proof.Machine.execNor a b s
  | .gateXor a b => Sys2Proof.Machine.execXor a b s
  | .halfAdd a b => Sys2Proof.Machine.execHalfAdd a b s
  | .fullAdd a b cin => Sys2Proof.Machine.execFullAdd a b cin s
  | .chain8 cin a x => Sys2Proof.Machine.execChain8 cin a x s
  | .chain16 cin a x => Sys2Proof.Machine.execChain16 cin a x s
  | .add8 a b => Sys2Proof.Machine.execAdd8 a b s
  | .sub8 a b => Sys2Proof.Machine.execSub8 a b s
  | .add16 a b => Sys2Proof.Machine.execAdd16 a b s
  | .sub16 a b => Sys2Proof.Machine.execSub16 a b s
  | .ovf8 c => Sys2Proof.Machine.execOvf8 c s
  | .ovf16 c => Sys2Proof.Machine.execOvf16 c s

end Sys2Proof.Machine
end

