-- ==== Sys2Proof/Machine/Step.lean ====
section
/-! DEFINITION. One step is one application (00_scope.md R2, R20): the driven input word is accepted, decoded and
executed atomically (20_memory.md R46). The inputs stay driven (70_reset_and_hazards.md R131). -/

namespace Sys2Proof.Machine

/-- One application of what the host drives. -/
def step (s : State) : Host.Outcome State Fault Refusal :=
  match fetch s with
  | .next iw =>
    match decode iw.component iw.bits with
    | .ok i => exec i s
    | .error (.wordOutsideFormat c w) => .refused (.wordOutsideFormat c w)
  | .fault r => .fault r
  | .refused r => .refused r

/-- The host applies a bare word of the opcode table (R127, apply; log 4 and log 5): it stands where the next
step reads its input word. -/
def State.withFetchWord (s : State) (nbits w : Nat) : State := driveTableWord s nbits w

end Sys2Proof.Machine
end

