-- ==== Sys2Proof/Machine/Levels.lean ====
section
/-! DEFINITION. The structural depth of 70_reset_and_hazards.md R133: the same netlists evaluated over gate
levels, with every input at level 0 and one level per gate, under the `direct` strategy. Informational in the
spec: no meaning reads it, and it is no timing (assumption log 3). -/

namespace Sys2Proof.Machine

/-- A gate's output is one level above its deepest input. -/
def levelGates : GateEval Nat where
  not a := a + 1
  nand a b := max a b + 1
  and a b := max a b + 1
  or a b := max a b + 1
  nor a b := max a b + 1
  xor a b := max a b + 1

/-- The levels of the sum and carry nets of an N-bit adder-subtractor, in ripple order. -/
def adderLevels (n : Nat) : List (SumResult Nat) :=
  rippleAddSub levelGates (List.replicate n 0) (List.replicate n 0) 0

/-- The level of `C[i]`, if i is an index. -/
def carryLevel (n i : Nat) : Option Nat := (adderLevels n).reverse[i]?.map SumResult.carry

/-- The level of `S[i]`, if i is an index. -/
def sumLevel (n i : Nat) : Option Nat := (adderLevels n).reverse[i]?.map SumResult.sum

/-- The level of V: the detector's `xor` over `C[0]` and `C[1]`. -/
def overflowLevel (n : Nat) : Option Nat :=
  match carryLevel n 0, carryLevel n 1 with
  | some c0, some c1 => some (levelGates.xor c0 c1)
  | _, _ => none

end Sys2Proof.Machine
end

