-- ==== Sys2Proof/Machine/Program.lean ====
section
/-! DEFINITION. Host programs (70_reset_and_hazards.md R128; 30_encoding.md R64, R134): a host applies, samples,
and decides from what it has sampled what to apply next. Its variables, tests and jumps are its own and have no
hardware semantics, so a host is any deterministic function of the outputs sampled so far (assumption log 9). -/

namespace Sys2Proof.Machine

/-- A host: from the outputs sampled so far, oldest first, the next application, or `none` when its last statement
has completed. -/
abbrev HostDriver := List Output → Option Application

/-- How a host program stands after some applications (R128). -/
inductive ProgramEnd where
  /-- Every application ended normally; the samples, oldest first. Only this is a final state. -/
  | normal (samples : List Output)
  /-- An application faulted; the program ended there. -/
  | faulted (r : Fault)
  /-- An application was refused; the program ended there. -/
  | refused (r : Refusal)
  /-- The bound on the number of applications was reached before the program ended. -/
  | running (samples : List Output)
  deriving DecidableEq, Repr

/-- One statement: apply, let it settle, sample (R127). -/
def applyAndSample (s : State) (a : Application) : Host.Outcome (State × Output) Fault Refusal :=
  match step (s.drive a) with
  | .next t =>
    match t.sample with
    | .next o => .next (t, o)
    | .fault r => .fault r
    | .refused r => .refused r
  | .fault r => .fault r
  | .refused r => .refused r

/-- Run a host for at most the given number of applications. A fault or a refusal ends the program at that
statement, and later statements do not run (R110, R128). -/
def runProgram (h : HostDriver) : Nat → State → List Output → ProgramEnd
  | 0, _, samples =>
    match h samples with
    | none => .normal samples
    | some _ => .running samples
  | k + 1, s, samples =>
    match h samples with
    | none => .normal samples
    | some a =>
      match applyAndSample s a with
      | .next (t, o) => runProgram h k t (samples ++ [o])
      | .fault r => .faulted r
      | .refused r => .refused r

/-- The host that applies the listed applications in order, whatever it samples. -/
def straightLine (as : List Application) : HostDriver := fun samples => as[samples.length]?

end Sys2Proof.Machine
end

