-- ==== Sys2Proof/WellFormed.lean ====
section
/-! DEFINITION. When what a host presents is a complete application (70_reset_and_hazards.md R126: every input
port driven in full, with bits). A term of `Instr` is well formed by its type (30_encoding.md R61), so the checks
are on `Application`, where a port can be missing, of a wrong length, or hold an element that is not a bit. -/

namespace Sys2Proof

/-- Every input port of the component is presented, and no other (R27). -/
def Application.everyPortPresent (a : Application) : Bool :=
  a.ports.length == a.component.ports.length

/-- Every port has exactly its width (R45, R98). -/
def Application.everyPortFull (a : Application) : Bool :=
  a.ports.map List.length == a.component.ports.map Prod.snd

/-- Every presented element is 0 or 1 (R10). -/
def Application.everyElementBit (a : Application) : Bool :=
  a.ports.all fun p => p.all isBit

/-- A complete input word of the component's format (R126, R127). -/
def Application.wf (a : Application) : Bool :=
  a.everyPortPresent && a.everyPortFull && a.everyElementBit

end Sys2Proof
end

