-- ==== Sys2Proof/Safety.lean ====
section
/-! DEFINITION. What counts as a good run, in the terms the statements use. -/

namespace Sys2Proof.Machine

/-- The application ends normally: it completes and the host samples its settled outputs
(70_reset_and_hazards.md R128). -/
def EndsNormally (s : State) : Prop := ∃ t o, step s = .next t ∧ t.sample = .next o

/-- In every state the instruction completes with the outputs o and changes nothing else. -/
def Gives (i : Instr) (o : Output) : Prop := ∀ s : State, exec i s = .next { s with outputs := some o }

/-- The output ports are, if defined, those of the word the host is driving: 70_reset_and_hazards.md R124, every
output port is at all times a function of the current input word. -/
def SettledOnDriven (s : State) : Prop :=
  ∀ o, s.outputs = some o →
    ∃ iw i, fetch s = .next iw ∧ decode iw.component iw.bits = .ok i ∧ Gives i o

/-- What an application reports to the host (60_exceptions.md R110, 70_reset_and_hazards.md R127): the settled
outputs, or the fault, or the refusal. -/
def report (s : State) (a : Application) : Host.Outcome Output Fault Refusal :=
  match applyAndSample s a with
  | .next (_, o) => .next o
  | .fault r => .fault r
  | .refused r => .refused r

/-- At the boundary of component c (60_exceptions.md R109): an application that presents every port with its width
and bits ends normally, and one that presents every port otherwise faults (R107, R108). -/
def FaultsExactlyOnBadInput (c : Component) : Prop :=
  ∀ (s : State) (a : Application), a.component = c → a.everyPortPresent = true →
    (a.wf = true → EndsNormally (s.drive a)) ∧ (a.wf = false → ∃ f, step (s.drive a) = .fault f)

/-- The signed law of 44_overflow.md R103 for a sum S and flag V of width n against the exact value T: V is 0 exactly when T is in the
signed range, and then S is T; otherwise S is T less or plus 2^n. -/
def SignedLaw (n : Nat) (t sum : Int) (v : Bit) : Prop :=
  (v = false ↔ -(2 ^ (n - 1)) ≤ t ∧ t ≤ 2 ^ (n - 1) - 1) ∧
  (v = false → sum = t) ∧
  (2 ^ (n - 1) ≤ t → v = true ∧ sum = t - 2 ^ n) ∧
  (t < -(2 ^ (n - 1)) → v = true ∧ sum = t + 2 ^ n)

/-- How a host's program ends for at most the given number of applications, if each application reports what `rep`
says of it (R128): no state is carried from one application to the next. -/
def endOfHost (h : HostDriver) (rep : Application → Host.Outcome Output Fault Refusal) :
    Nat → List Output → ProgramEnd
  | 0, samples => if (h samples).isNone then .normal samples else .running samples
  | k + 1, samples =>
    match (h samples).map rep with
    | none => .normal samples
    | some (.next o) => endOfHost h rep k (samples ++ [o])
    | some (.fault r) => .faulted r
    | some (.refused r) => .refused r

/-- How a program of the given application reports ends (R128): with every output if all ended normally, else at
the first fault or refusal. -/
def endOfReports : List (Host.Outcome Output Fault Refusal) → List Output → ProgramEnd
  | [], samples => .normal samples
  | .next o :: rest, samples => endOfReports rest (samples ++ [o])
  | .fault r :: _, _ => .faulted r
  | .refused r :: _, _ => .refused r

end Sys2Proof.Machine
end

