-- ==== Sys2Proof/Certificates/Slice0/Obligations.lean ====
section
/-! DEFINITION. The statements for the provers, from the numbered rules of spec/. -/

open Sys2Proof Sys2Proof.Machine

/-! ### Encoding (30_encoding.md) -/

/-- Tier 3, R56, R60: no bit of an input word is dropped. -/
def Obligations.DecodeOfEncode : Prop :=
  ∀ i : Instr, decode (encode i).component (encode i).bits = .ok i

/-- R56, R60: a word that decodes is the encoding of what it decodes to; a word decodes exactly when it is of the
format's width (the rejection of a wider word is the model's choice, log 8). -/
def Obligations.EncodeOfDecode : Prop :=
  (∀ (c : Component) (w : Nat) (i : Instr), decode c w = .ok i → encode i = ⟨c, w⟩) ∧
  (∀ (c : Component) (w : Nat), (∃ i, decode c w = .ok i) ↔ w < 2 ^ c.width)

/-- R57: `P[i] = W[lo + N - 1 - i]` and the field's value is `uval P`; for the adders, the chains and the detectors
at both widths, with M, CIN, A, B, X and C where the rule puts them. -/
def Obligations.WordPositionsOfPorts : Prop :=
  (∀ w lo n : Nat, (∀ i, i < n → elem (wordField w lo n) i = wordBit w (lo + n - 1 - i)) ∧
    uval (wordField w lo n) = w / 2 ^ lo % 2 ^ n) ∧
  (∀ w : Nat, w < 2 ^ 17 → ∃ a b : BitVec 8,
    decode .rippleCarryAdder8 w = .ok (if wordBit w 16 then .sub8 a b else .add8 a b) ∧
    decode .carryChain8 w = .ok (.chain8 (wordBit w 16) a b) ∧
    (∀ i, i < 8 → elem a i = wordBit w (15 - i) ∧ elem b i = wordBit w (7 - i)) ∧
    uval a = w / 2 ^ 8 % 2 ^ 8 ∧ uval b = w % 2 ^ 8) ∧
  (∀ w : Nat, w < 2 ^ 33 → ∃ a b : BitVec 16,
    decode .rippleCarryAdder16 w = .ok (if wordBit w 32 then .sub16 a b else .add16 a b) ∧
    decode .carryChain16 w = .ok (.chain16 (wordBit w 32) a b) ∧
    (∀ i, i < 16 → elem a i = wordBit w (31 - i) ∧ elem b i = wordBit w (15 - i)) ∧
    uval a = w / 2 ^ 16 % 2 ^ 16 ∧ uval b = w % 2 ^ 16) ∧
  (∀ w : Nat, w < 2 ^ 8 → ∃ c : BitVec 8, decode .overflowDetector8 w = .ok (.ovf8 c) ∧
    (∀ i, i < 8 → elem c i = wordBit w (7 - i)) ∧ uval c = w) ∧
  (∀ w : Nat, w < 2 ^ 16 → ∃ c : BitVec 16, decode .overflowDetector16 w = .ok (.ovf16 c) ∧
    (∀ i, i < 16 → elem c i = wordBit w (15 - i)) ∧ uval c = w)

/-- R58: every output word, its width, where its fields stand, COUT and RES. -/
def Obligations.OutputWordLayout : Prop :=
  (∀ y : Bit, (Output.one y).width = 1 ∧ (Output.one y).word = y.toNat ∧
    (Output.ovf y).width = 1 ∧ (Output.ovf y).word = y.toNat) ∧
  (∀ c s : Bit, (Output.ha c s).width = 2 ∧ (Output.ha c s).word = 2 * c.toNat + s.toNat ∧
    (Output.fa c s).width = 2 ∧ (Output.fa c s).word = 2 * c.toNat + s.toNat) ∧
  (∀ c s : BitVec 8, (Output.chain8 c s).width = 16 ∧ (Output.chain8 c s).word = uval c * 2 ^ 8 + uval s ∧
    ∀ i, i < 8 → elem c i = wordBit (Output.chain8 c s).word (15 - i) ∧
      elem s i = wordBit (Output.chain8 c s).word (7 - i)) ∧
  (∀ c s : BitVec 16, (Output.chain16 c s).width = 32 ∧ (Output.chain16 c s).word = uval c * 2 ^ 16 + uval s ∧
    ∀ i, i < 16 → elem c i = wordBit (Output.chain16 c s).word (31 - i) ∧
      elem s i = wordBit (Output.chain16 c s).word (15 - i)) ∧
  (∀ (v : Bit) (c s : BitVec 8), (Output.rca8 v c s).width = 17 ∧
    (Output.rca8 v c s).word = v.toNat * 2 ^ 16 + uval c * 2 ^ 8 + uval s ∧
    (∀ i, i < 8 → elem c i = wordBit (Output.rca8 v c s).word (15 - i) ∧
      elem s i = wordBit (Output.rca8 v c s).word (7 - i)) ∧
    v = wordBit (Output.rca8 v c s).word 16 ∧ carryOut c = wordBit (Output.rca8 v c s).word 15 ∧
    fullResult s c = (BitVec.ofBool (carryOut c) ++ s).toNat) ∧
  (∀ (v : Bit) (c s : BitVec 16), (Output.rca16 v c s).width = 33 ∧
    (Output.rca16 v c s).word = v.toNat * 2 ^ 32 + uval c * 2 ^ 16 + uval s ∧
    (∀ i, i < 16 → elem c i = wordBit (Output.rca16 v c s).word (31 - i) ∧
      elem s i = wordBit (Output.rca16 v c s).word (15 - i)) ∧
    v = wordBit (Output.rca16 v c s).word 32 ∧ carryOut c = wordBit (Output.rca16 v c s).word 31 ∧
    fullResult s c = (BitVec.ofBool (carryOut c) ++ s).toNat)

/-- R61: every word of a format's width is a legal application with a defined result. -/
def Obligations.EveryWordIsLegal : Prop :=
  ∀ (s : State) (c : Component) (w : Nat), w < 2 ^ c.width →
    ∃ (i : Instr) (o : Output), decode c w = .ok i ∧ exec i (s.driveWord c w) = step (s.driveWord c w) ∧
      step (s.driveWord c w) = .next { s.driveWord c w with outputs := some o }

/-- Words written out from the patterns of R56 and decoded: a sanity statement over the families. -/
def Obligations.SampleWordsDecode : Prop :=
  decode .nmosSwitch 0b10 = .ok (.nmos true false) ∧ decode .pmosSwitch 0b01 = .ok (.pmos false true) ∧
  decode .gateXor 0b10 = .ok (.gateXor true false) ∧ decode .fullAdder 0b100 = .ok (.fullAdd true false false) ∧
  decode .carryChain8 0x1FF00 = .ok (.chain8 true 0xFF 0x00) ∧
  decode .rippleCarryAdder8 0x10503 = .ok (.sub8 0x05 0x03) ∧
  decode .rippleCarryAdder16 0x180038001 = .ok (.sub16 0x8003 0x8001) ∧
  decode .overflowDetector8 0x83 = .ok (.ovf8 0x83)

/-! ### The step (00_scope.md R2, 20_memory.md R46, R49) -/

/-- A step runs the instruction that the driven input word decodes to, on the same state. -/
def Obligations.StepRunsDecodedInstruction : Prop :=
  ∀ (s : State) (iw : InputWord) (i : Instr), fetch s = .next iw → decode iw.component iw.bits = .ok i →
    step s = exec i s

/-- R127 (apply): the word the host drives on a component is the word the step reads. -/
def Obligations.DrivenWordIsFetched : Prop :=
  ∀ (s : State) (c : Component) (w : Nat), w < 2 ^ c.width → fetch (s.driveWord c w) = .next ⟨c, w⟩

/-- A bare word of the opcode table, driven on the component the model reads it on (log 5), is run by the next
step. -/
def Obligations.TableWordRunsNext : Prop :=
  ∀ (s : State) (nbits w : Nat) (i : Instr), decodeTableWord nbits w = some i →
    step (s.withFetchWord nbits w) = exec i (s.withFetchWord nbits w)

/-- Frame: a step that ends normally changes the output ports and nothing else, and defines them. -/
def Obligations.StepChangesOutputsOnly : Prop :=
  ∀ s t : State, step s = .next t → ∃ o, t = { s with outputs := some o }

/-- Tier 3 (R46, R124): the output ports, where defined, are those of the word being driven, and every step keeps
it so. -/
def Obligations.StepKeepsSettledOnDriven : Prop :=
  ∀ s t : State, SettledOnDriven s → step s = .next t → SettledOnDriven t

/-- The invariant holds after reset and after every action by which the host drives inputs. -/
def Obligations.SettledOnDrivenStarts : Prop :=
  SettledOnDriven State.reset ∧ ∀ (s : State) (a : Application), SettledOnDriven (s.drive a)

/-- R49: what an application reports depends on that application's inputs only: not on what was applied before,
on what was sampled, or on the gate strategy. -/
def Obligations.ReportDependsOnInputsOnly : Prop :=
  ∀ (s s' : State) (a : Application), report s a = report s' a

/-- R46: an application is idempotent: stepping again on the same inputs changes nothing. -/
def Obligations.StepIsIdempotent : Prop :=
  ∀ s t : State, step s = .next t → step t = .next t

/-- R125, R40: at reset nothing is driven and no output is defined, and there is nothing to sample before an
application on the driven inputs has completed; R131: driving again abandons the earlier word. The refusals
`notSettled` and `noApplication` are the model's form of it (log 4, log 6). -/
def Obligations.NothingObservableBeforeCompletion : Prop :=
  State.reset.driven = none ∧ State.reset.outputs = none ∧ State.reset.sample = .refused .notSettled ∧
  step State.reset = .refused .noApplication ∧
  (∀ (s : State) (a : Application), (s.drive a).sample = .refused .notSettled) ∧
  (∀ (s : State) (a b : Application), (s.drive a).drive b = s.drive b)

/-! ### Switches (40_transistor_switches.md) -/

/-- R67. -/
def Obligations.NmosSwitchRule : Prop :=
  (∀ g src : Bit, encode (.nmos g src) = ⟨.nmosSwitch, 2 * g.toNat + src.toNat⟩ ∧
    Gives (.nmos g src) (.one (if g = true then src else false)) ∧ nmosSwitch g src = (g && src)) ∧
  (∀ (s : State) (x y : Int), (isBit x && isBit y) = false →
    step (s.drive ⟨.nmosSwitch, [[x], [y]]⟩) = .refused .nonBitBelowBoundary)

/-- R68. -/
def Obligations.PmosSwitchRule : Prop :=
  (∀ g src : Bit, encode (.pmos g src) = ⟨.pmosSwitch, 2 * g.toNat + src.toNat⟩ ∧
    Gives (.pmos g src) (.one (if g = false then src else false)) ∧ pmosSwitch g src = (!g && src)) ∧
  (∀ (s : State) (x y : Int), (isBit x && isBit y) = false →
    step (s.drive ⟨.pmosSwitch, [[x], [y]]⟩) = .refused .nonBitBelowBoundary)

/-! ### Gates (41_gates.md) -/

/-- R72. -/
def Obligations.NotGateRule : Prop :=
  ∀ a : Bit, encode (.gateNot a) = ⟨.gateNot, a.toNat⟩ ∧ Gives (.gateNot a) (.one (!a)) ∧
    (directGates.not a).toNat = 1 - a.toNat ∧
    transistorGates.not a = outputNode [nmosSwitch a false, pmosSwitch a true] ∧
    nmosSwitch a false = false ∧ pmosSwitch a true = !a

/-- R73. -/
def Obligations.NandGateRule : Prop :=
  ∀ a b : Bit, encode (.gateNand a b) = ⟨.gateNand, 2 * a.toNat + b.toNat⟩ ∧
    Gives (.gateNand a b) (.one (!(a && b))) ∧ (directGates.nand a b).toNat = 1 - (a && b).toNat ∧
    transistorGates.nand a b
      = outputNode [nmosSwitch a (nmosSwitch b false), pmosSwitch b true, pmosSwitch a true] ∧
    nmosSwitch b false = false ∧ nmosSwitch a (nmosSwitch b false) = false

/-- R74. -/
def Obligations.AndGateRule : Prop :=
  ∀ a b : Bit, encode (.gateAnd a b) = ⟨.gateAnd, 2 * a.toNat + b.toNat⟩ ∧
    Gives (.gateAnd a b) (.one (a && b)) ∧ directGates.and a b = (a && b) ∧
    transistorGates.and a b
      = transistorGates.nand (transistorGates.nand a b) (transistorGates.nand a b)

/-- R75. -/
def Obligations.OrGateRule : Prop :=
  ∀ a b : Bit, encode (.gateOr a b) = ⟨.gateOr, 2 * a.toNat + b.toNat⟩ ∧
    Gives (.gateOr a b) (.one (a || b)) ∧ directGates.or a b = (a || b) ∧
    transistorGates.or a b
      = transistorGates.nand (transistorGates.nand a a) (transistorGates.nand b b) ∧
    transistorGates.nand a a = !a

/-- R76. -/
def Obligations.NorGateRule : Prop :=
  ∀ a b : Bit, encode (.gateNor a b) = ⟨.gateNor, 2 * a.toNat + b.toNat⟩ ∧
    Gives (.gateNor a b) (.one (!(a || b))) ∧ (directGates.nor a b).toNat = 1 - (a || b).toNat ∧
    transistorGates.nor a b = transistorGates.not (transistorGates.or a b)

/-- R77. -/
def Obligations.XorGateRule : Prop :=
  ∀ a b : Bit, encode (.gateXor a b) = ⟨.gateXor, 2 * a.toNat + b.toNat⟩ ∧
    Gives (.gateXor a b) (.one (a ^^ b)) ∧ directGates.xor a b = (a ^^ b) ∧
    transistorGates.xor a b = transistorGates.and (transistorGates.or a b) (transistorGates.nand a b) ∧
    directGates.xor a false = a ∧ directGates.xor a true = !a ∧
    transistorGates.xor a false = a ∧ transistorGates.xor a true = !a

/-- R78: the strategies agree on every gate, so no application's outputs depend on the strategy, at any width;
with the gate properties of the rule. -/
def Obligations.StrategiesAgree : Prop :=
  (∀ a b : Bit, transistorGates.not a = directGates.not a ∧ transistorGates.nand a b = directGates.nand a b ∧
    transistorGates.and a b = directGates.and a b ∧ transistorGates.or a b = directGates.or a b ∧
    transistorGates.nor a b = directGates.nor a b ∧ transistorGates.xor a b = directGates.xor a b) ∧
  (∀ a b : Bit, directGates.xor a b = (a != b) ∧ directGates.and a b = (a && b) ∧
    directGates.or a b = (a || b) ∧ (directGates.nand a b).toNat = 1 - (directGates.and a b).toNat ∧
    (directGates.nor a b).toNat = 1 - (directGates.or a b).toNat) ∧
  (∀ (n : Nat) (a b : BitVec n) (m : Bit), adderSubtractor transistorGates a b m = adderSubtractor directGates a b m) ∧
  (∀ i : Instr, ∃ o, Gives i o)

/-! ### One-bit adders (42_adders_1bit.md) -/

/-- R79 and R80. -/
def Obligations.HalfAdderRule : Prop :=
  (∀ a b : Bit, encode (.halfAdd a b) = ⟨.halfAdder, 2 * a.toNat + b.toNat⟩ ∧
    ∃ c s : Bit, Gives (.halfAdd a b) (.ha c s) ∧ s = (a ^^ b) ∧ c = (a && b) ∧ (c && s) = false ∧
      a.toNat + b.toNat = 2 * c.toNat + s.toNat ∧ (Output.ha c s).word = a.toNat + b.toNat ∧
      ∀ e, (e = directGates ∨ e = transistorGates) → halfAdder e a b = ⟨e.xor a b, e.and a b⟩) ∧
  Gives (.halfAdd false false) (.ha false false) ∧ Gives (.halfAdd false true) (.ha false true) ∧
  Gives (.halfAdd true false) (.ha false true) ∧ Gives (.halfAdd true true) (.ha true false)

/-- R81 and R82. -/
def Obligations.FullAdderRule : Prop :=
  (∀ a b cin : Bit, encode (.fullAdd a b cin) = ⟨.fullAdder, 4 * a.toNat + 2 * b.toNat + cin.toNat⟩ ∧
    ∃ cout s : Bit, Gives (.fullAdd a b cin) (.fa cout s) ∧ s = (a ^^ b ^^ cin) ∧
      cout = ((a && b) || (a && cin) || (b && cin)) ∧
      a.toNat + b.toNat + cin.toNat = 2 * cout.toNat + s.toNat ∧
      (Output.fa cout s).word = a.toNat + b.toNat + cin.toNat) ∧
  (∀ (g : GateStrategy) (a b cin : Bit),
    let e := gatesOf g
    let h1 := halfAdder e a b
    let h2 := halfAdder e h1.sum cin
    fullAdder e a b cin = ⟨h2.sum, e.or h1.carry h2.carry⟩ ∧ (h1.carry && h2.carry) = false ∧
      e.or h1.carry h2.carry = (h1.carry ^^ h2.carry) ∧
      (e.or h1.carry h2.carry).toNat = h1.carry.toNat + h2.carry.toNat ∧
      fullAdder e a b false = halfAdder e a b)

/-! ### Carry chain (43_ripple_carry.md) -/

/-- R84: at every position of a chain of any width N ≥ 1, S[i] and C[i] are the outputs of one full adder on A[i],
X[i] and the carry into the position. -/
def Obligations.ChainIsFullAdderPerPosition : Prop :=
  ∀ (g : GateStrategy) (n : Nat) (a x : BitVec n) (cin : Bit) (i : Nat), i < n →
    let r := carryChain (gatesOf g) a x cin
    let f := fullAdder (gatesOf g) (elem a i) (elem x i) (if i = n - 1 then cin else elem r.carries (i + 1))
    elem r.sum i = f.sum ∧ elem r.carries i = f.carry

/-- R97: the closed form of every carry and sum bit. -/
def Obligations.ChainClosedForm : Prop :=
  ∀ (g : GateStrategy) (n : Nat) (a x : BitVec n) (cin : Bit),
    let r := carryChain (gatesOf g) a x cin
    (∀ i, i < n →
      let t := uval (tailFrom a i) + uval (tailFrom x i) + cin.toNat
      (elem r.carries i).toNat = t / 2 ^ (n - i) ∧ (elem r.sum i).toNat = t / 2 ^ (n - 1 - i) % 2) ∧
    (1 ≤ n → (elem r.carries 0).toNat = (uval a + uval x + cin.toNat) / 2 ^ n) ∧
    (2 ≤ n → (elem r.carries 1).toNat
      = (uval (tailFrom a 1) + uval (tailFrom x 1) + cin.toNat) / 2 ^ (n - 1))

/-- R87: the carry and sum at position i depend only on the operands from i towards the LSB and on the
carry-in. -/
def Obligations.CarryDependsOnLowerPositionsOnly : Prop :=
  ∀ (g : GateStrategy) (n : Nat) (a a' x x' : BitVec n) (cin : Bit) (i : Nat), i < n →
    (∀ j, i ≤ j → j < n → elem a j = elem a' j ∧ elem x j = elem x' j) →
    elem (carryChain (gatesOf g) a x cin).carries i = elem (carryChain (gatesOf g) a' x' cin).carries i ∧
    elem (carryChain (gatesOf g) a x cin).sum i = elem (carryChain (gatesOf g) a' x' cin).sum i

/-- R85. -/
def Obligations.Chain8Rule : Prop :=
  (∀ (cin : Bit) (a x : BitVec 8),
    encode (.chain8 cin a x) = ⟨.carryChain8, cin.toNat * 2 ^ 16 + uval a * 2 ^ 8 + uval x⟩ ∧
    ∃ c s : BitVec 8, Gives (.chain8 cin a x) (.chain8 c s) ∧ RipplesTo a x cin s c ∧
      (Output.chain8 c s).word = uval c * 2 ^ 8 + uval s) ∧
  (∀ a : BitVec 8, Gives (.chain8 true a 0xFF) (.chain8 0xFF a)) ∧
  Gives (.chain8 false 0x81 0x8B) (.chain8 0x83 0x0C) ∧ (encode (.chain8 false 0x81 0x8B)).bits = 0x0818B ∧
  FaultsExactlyOnBadInput .carryChain8

/-- R86. -/
def Obligations.Chain16Rule : Prop :=
  (∀ (cin : Bit) (a x : BitVec 16),
    encode (.chain16 cin a x) = ⟨.carryChain16, cin.toNat * 2 ^ 32 + uval a * 2 ^ 16 + uval x⟩ ∧
    ∃ c s : BitVec 16, Gives (.chain16 cin a x) (.chain16 c s) ∧ RipplesTo a x cin s c ∧
      (Output.chain16 c s).word = uval c * 2 ^ 16 + uval s) ∧
  Gives (.chain16 true 0xFFFF 0) (.chain16 0xFFFF 0) ∧
  Gives (.chain16 true 0x8003 0x7FFE) (.chain16 0xFFFF 0x0002) ∧
  FaultsExactlyOnBadInput .carryChain16

/-! ### Adder-subtractors (43_ripple_carry.md) -/

/-- R88 and R89: the conditioned operand, and the adder as chain and detector with `CIN = M`, at any width. -/
def Obligations.AdderIsConditionedChain : Prop :=
  ∀ (g : GateStrategy) (n : Nat) (a b : BitVec n) (m : Bit),
    let x := conditioned (gatesOf g) b m
    let r := adderSubtractor (gatesOf g) a b m
    (∀ i, i < n → elem x i = (gatesOf g).xor (elem b i) m) ∧ x = (if m then ~~~b else b) ∧
    r.sum = (carryChain (gatesOf g) a x m).sum ∧ r.carries = (carryChain (gatesOf g) a x m).carries ∧
    carryOut r.carries = elem r.carries 0 ∧
    r.overflow = (gatesOf g).xor (elem r.carries 0) (elem r.carries 1)

/-- R94: the plain adder is mode 0, for every A and B; ADD8 and ADD16 are it. -/
def Obligations.PlainAdderIsModeZero : Prop :=
  (∀ (g : GateStrategy) (n : Nat) (a b : BitVec n),
    let r := adderSubtractor (gatesOf g) a b false
    let p := carryChain (gatesOf g) a b false
    r.sum = p.sum ∧ r.carries = p.carries ∧ plainAdder (gatesOf g) a b = (r.sum, elem r.carries 0)) ∧
  (∀ (g : GateStrategy) (a b : BitVec 8), ∃ v c, Gives (.add8 a b) (.rca8 v c (plainAdder (gatesOf g) a b).1) ∧
    carryOut c = (plainAdder (gatesOf g) a b).2) ∧
  (∀ (g : GateStrategy) (a b : BitVec 16), ∃ v c, Gives (.add16 a b) (.rca16 v c (plainAdder (gatesOf g) a b).1) ∧
    carryOut c = (plainAdder (gatesOf g) a b).2)

/-- R95: the unsigned addition law, at every width. -/
def Obligations.UnsignedAdditionLaw : Prop :=
  ∀ (g : GateStrategy) (n : Nat) (a b : BitVec n),
    let r := adderSubtractor (gatesOf g) a b false
    uval r.sum + 2 ^ n * (carryOut r.carries).toNat = uval a + uval b ∧
    fullResult r.sum r.carries = uval a + uval b

/-- R96: the unsigned subtraction law, at every width N ≥ 1. -/
def Obligations.UnsignedSubtractionLaw : Prop :=
  ∀ (g : GateStrategy) (n : Nat) (a b : BitVec n), 1 ≤ n →
    let r := adderSubtractor (gatesOf g) a b true
    uval r.sum + 2 ^ n * (carryOut r.carries).toNat = uval a + (2 ^ n - 1 - uval b) + 1 ∧
    (uval r.sum : Int) = ((uval a : Int) - (uval b : Int)) % 2 ^ n ∧
    (carryOut r.carries = true ↔ uval b ≤ uval a)

/-- R90. -/
def Obligations.Add8Rule : Prop :=
  (∀ a b : BitVec 8, encode (.add8 a b) = ⟨.rippleCarryAdder8, uval a * 2 ^ 8 + uval b⟩ ∧
    ∃ (v : Bit) (c s : BitVec 8), Gives (.add8 a b) (.rca8 v c s) ∧ RipplesTo a b false s c ∧
      v = (elem c 0 ^^ elem c 1) ∧ (Output.rca8 v c s).read .cout = some [elem c 0] ∧
      uval s + 256 * (carryOut c).toNat = uval a + uval b ∧
      SignedLaw 8 (sval a + sval b) (sval s) v) ∧
  (∀ a : BitVec 8, ∃ (v : Bit) (c s : BitVec 8), Gives (.add8 a a) (.rca8 v c s) ∧
    uval s = 2 * uval a % 256 ∧ carryOut c = elem a 0) ∧
  Gives (.add8 0 0) (.rca8 false 0 0) ∧ Gives (.add8 255 1) (.rca8 false 0xFF 0) ∧
  Gives (.add8 127 1) (.rca8 true 0x7F 0x80) ∧ Gives (.add8 128 128) (.rca8 true 0x80 0) ∧
  Gives (.add8 0x81 0x8B) (.rca8 true 0x83 0x0C) ∧ fullResult (0x0C : BitVec 8) 0x83 = 268 ∧
  FaultsExactlyOnBadInput .rippleCarryAdder8

/-- R91. -/
def Obligations.Sub8Rule : Prop :=
  (∀ a b : BitVec 8, encode (.sub8 a b) = ⟨.rippleCarryAdder8, 2 ^ 16 + uval a * 2 ^ 8 + uval b⟩ ∧
    ∃ (v : Bit) (c s : BitVec 8), Gives (.sub8 a b) (.rca8 v c s) ∧ RipplesTo a (~~~b) true s c ∧
      v = (elem c 0 ^^ elem c 1) ∧ (Output.rca8 v c s).read .cout = some [elem c 0] ∧
      (uval s : Int) = ((uval a : Int) - (uval b : Int)) % 256 ∧ (carryOut c = true ↔ uval b ≤ uval a) ∧
      SignedLaw 8 (sval a - sval b) (sval s) v) ∧
  (∀ a : BitVec 8, Gives (.sub8 a a) (.rca8 false 0xFF 0)) ∧
  Gives (.sub8 0 0) (.rca8 false 0xFF 0) ∧ Gives (.sub8 0 1) (.rca8 false 0 0xFF) ∧
  Gives (.sub8 0 0x80) (.rca8 true 0x7F 0x80) ∧ Gives (.sub8 0x80 1) (.rca8 true 0x80 0x7F) ∧
  Gives (.sub8 5 3) (.rca8 false 0xFD 2) ∧ (encode (.sub8 5 3)).bits = 0x10503 ∧
  FaultsExactlyOnBadInput .rippleCarryAdder8

/-- R92. -/
def Obligations.Add16Rule : Prop :=
  (∀ a b : BitVec 16, encode (.add16 a b) = ⟨.rippleCarryAdder16, uval a * 2 ^ 16 + uval b⟩ ∧
    ∃ (v : Bit) (c s : BitVec 16), Gives (.add16 a b) (.rca16 v c s) ∧ RipplesTo a b false s c ∧
      v = (elem c 0 ^^ elem c 1) ∧ (Output.rca16 v c s).read .cout = some [elem c 0] ∧
      uval s + 65536 * (carryOut c).toNat = uval a + uval b ∧
      SignedLaw 16 (sval a + sval b) (sval s) v) ∧
  Gives (.add16 0xFFFF 1) (.rca16 false 0xFFFF 0) ∧ Gives (.add16 0x7FFF 1) (.rca16 true 0x7FFF 0x8000) ∧
  Gives (.add16 0x8000 0x8000) (.rca16 true 0x8000 0) ∧ (encode (.add16 0x7FFF 1)).bits = 0x07FFF0001 ∧
  FaultsExactlyOnBadInput .rippleCarryAdder16

/-- R93. -/
def Obligations.Sub16Rule : Prop :=
  (∀ a b : BitVec 16, encode (.sub16 a b) = ⟨.rippleCarryAdder16, 2 ^ 32 + uval a * 2 ^ 16 + uval b⟩ ∧
    ∃ (v : Bit) (c s : BitVec 16), Gives (.sub16 a b) (.rca16 v c s) ∧ RipplesTo a (~~~b) true s c ∧
      v = (elem c 0 ^^ elem c 1) ∧ (Output.rca16 v c s).read .cout = some [elem c 0] ∧
      (uval s : Int) = ((uval a : Int) - (uval b : Int)) % 65536 ∧ (carryOut c = true ↔ uval b ≤ uval a) ∧
      SignedLaw 16 (sval a - sval b) (sval s) v) ∧
  (∀ a : BitVec 16, Gives (.sub16 a a) (.rca16 false 0xFFFF 0)) ∧
  Gives (.sub16 0 1) (.rca16 false 0 0xFFFF) ∧ Gives (.sub16 0 0x8000) (.rca16 true 0x7FFF 0x8000) ∧
  Gives (.sub16 0x8000 1) (.rca16 true 0x8000 0x7FFF) ∧
  Gives (.sub16 0x8003 0x8001) (.rca16 false 0xFFFF 2) ∧ (encode (.sub16 0x8003 0x8001)).bits = 0x180038001 ∧
  sval (0x8003 : BitVec 16) = -32765 ∧ sval (0x8001 : BitVec 16) = -32767 ∧ sval (2 : BitVec 16) = 2 ∧
  FaultsExactlyOnBadInput .rippleCarryAdder16

/-! ### Overflow detector (44_overflow.md) -/

/-- R99: V is the exclusive or of C[0] and C[1]; the other carries do not matter. -/
def Obligations.DetectorReadsTwoCarries : Prop :=
  ∀ (g : GateStrategy) (n : Nat) (c c' : BitVec n), 2 ≤ n →
    overflowDetector (gatesOf g) c = (elem c 0 ^^ elem c 1) ∧
    (elem c 0 = elem c' 0 → elem c 1 = elem c' 1 →
      overflowDetector (gatesOf g) c = overflowDetector (gatesOf g) c')

/-- R100. -/
def Obligations.Ovf8Rule : Prop :=
  (∀ c : BitVec 8, encode (.ovf8 c) = ⟨.overflowDetector8, uval c⟩ ∧
    (∀ i, i < 8 → elem c i = wordBit (encode (.ovf8 c)).bits (7 - i)) ∧
    Gives (.ovf8 c) (.ovf (elem c 0 ^^ elem c 1)) ∧
    Gives (.ovf8 c) (.ovf (wordBit (encode (.ovf8 c)).bits 7 ^^ wordBit (encode (.ovf8 c)).bits 6)) ∧
    (elem c 0 = elem c 1 → Gives (.ovf8 c) (.ovf false))) ∧
  Gives (.ovf8 0x80) (.ovf true) ∧ Gives (.ovf8 0x83) (.ovf true) ∧
  FaultsExactlyOnBadInput .overflowDetector8

/-- R101. -/
def Obligations.Ovf16Rule : Prop :=
  (∀ c : BitVec 16, encode (.ovf16 c) = ⟨.overflowDetector16, uval c⟩ ∧
    (∀ i, i < 16 → elem c i = wordBit (encode (.ovf16 c)).bits (15 - i)) ∧
    Gives (.ovf16 c) (.ovf (elem c 0 ^^ elem c 1)) ∧
    Gives (.ovf16 c) (.ovf (wordBit (encode (.ovf16 c)).bits 15 ^^ wordBit (encode (.ovf16 c)).bits 14)) ∧
    (elem c 0 = elem c 1 → Gives (.ovf16 c) (.ovf false))) ∧
  Gives (.ovf16 0x8000) (.ovf true) ∧ Gives (.ovf16 0xFFFF) (.ovf false) ∧
  FaultsExactlyOnBadInput .overflowDetector16

/-- R102: V of an adder application is the detector's V on that application's own carry vector, in both modes. -/
def Obligations.AdderOverflowIsDetectorOnItsCarries : Prop :=
  (∀ a b : BitVec 8, (∃ v c s, Gives (.add8 a b) (.rca8 v c s) ∧ Gives (.ovf8 c) (.ovf v)) ∧
    (∃ v c s, Gives (.sub8 a b) (.rca8 v c s) ∧ Gives (.ovf8 c) (.ovf v))) ∧
  (∀ a b : BitVec 16, (∃ v c s, Gives (.add16 a b) (.rca16 v c s) ∧ Gives (.ovf16 c) (.ovf v)) ∧
    (∃ v c s, Gives (.sub16 a b) (.rca16 v c s) ∧ Gives (.ovf16 c) (.ovf v)))

/-- R103: V is 0 exactly when the exact signed sum or difference is representable, and S is right modulo
2^N, at every width N ≥ 2 and in both modes. -/
def Obligations.SignedArithmeticLaw : Prop :=
  ∀ (g : GateStrategy) (n : Nat) (a b : BitVec n) (m : Bit), 2 ≤ n →
    let r := adderSubtractor (gatesOf g) a b m
    sval a + sval (flippedBy b m) + (m.toNat : Int) = signedTarget a b m ∧
    SignedLaw n (signedTarget a b m) (sval r.sum) r.overflow

/-- R104: the carry rule is the operand-sign form on the conditioned sign, at every width N ≥ 2; taken on B's own
sign it is wrong in subtract mode. -/
def Obligations.OverflowIsSignFormOnConditionedOperand : Prop :=
  (∀ (g : GateStrategy) (n : Nat) (a b : BitVec n) (m : Bit), 2 ≤ n →
    let r := adderSubtractor (gatesOf g) a b m
    ((elem r.carries 0 ^^ elem r.carries 1) = true ↔
      elem a 0 = elem (flippedBy b m) 0 ∧ elem r.sum 0 ≠ elem a 0) ∧
    r.overflow = (elem r.carries 0 ^^ elem r.carries 1)) ∧
  (∀ g : GateStrategy, (adderSubtractor (gatesOf g) (0 : BitVec 8) 0x80 true).overflow = true ∧
    elem (0 : BitVec 8) 0 ≠ elem (0x80 : BitVec 8) 0)

/-! ### Boundary (60_exceptions.md) -/

/-- R106, R108: a wrong length faults with N and the lengths of the vector operands. Two clauses are the model's:
what is recorded when it is M or CIN that has the wrong length is log 10's deduction, and "whatever the elements are"
rests on the order of R112, the spec's own choice D8. -/
def Obligations.WidthMismatchRule : Prop :=
  ∀ (s : State) (k a b : List Int),
    (k.length ≠ 1 ∨ a.length ≠ 8 ∨ b.length ≠ 8 →
      step (s.drive ⟨.rippleCarryAdder8, [k, a, b]⟩) = .fault (.widthMismatch 8 [a.length, b.length]) ∧
      step (s.drive ⟨.carryChain8, [k, a, b]⟩) = .fault (.widthMismatch 8 [a.length, b.length])) ∧
    (k.length ≠ 1 ∨ a.length ≠ 16 ∨ b.length ≠ 16 →
      step (s.drive ⟨.rippleCarryAdder16, [k, a, b]⟩) = .fault (.widthMismatch 16 [a.length, b.length]) ∧
      step (s.drive ⟨.carryChain16, [k, a, b]⟩) = .fault (.widthMismatch 16 [a.length, b.length])) ∧
    (a.length ≠ 8 → step (s.drive ⟨.overflowDetector8, [a]⟩) = .fault (.widthMismatch 8 [a.length])) ∧
    (a.length ≠ 16 → step (s.drive ⟨.overflowDetector16, [a]⟩) = .fault (.widthMismatch 16 [a.length])) ∧
    (∀ n ls, (Fault.widthMismatch n ls).code = 2)

/-- R107 in the order of R112: a wrong length is reported first, whatever the elements are; with all widths right,
the first element that is not a bit, port by port in input-word order and index by index, is reported with its port,
index and value. WHICH fault is reported is the spec's own choice D8, on which R112 asks no claim to rest, and the
elements as integers are log 10's deduction. -/
def Obligations.InvalidBitValueRule : Prop :=
  (∀ (s : State) (a : Application) (n : Nat), a.component.vectorWidth = some n → a.everyPortPresent = true →
    a.everyPortFull = false → ∃ lengths, step (s.drive a) = .fault (.widthMismatch n lengths)) ∧
  (∀ (s : State) (a : Application) (n k i : Nat) (port : PortName) (e : Int),
    a.component.vectorWidth = some n → a.everyPortFull = true →
    (a.component.ports[k]?).map Prod.fst = some port → (a.ports[k]?).bind (fun p => p[i]?) = some e →
    isBit e = false →
    (∀ (k' i' : Nat) (e' : Int), k' < k ∨ (k' = k ∧ i' < i) →
      (a.ports[k']?).bind (fun p => p[i']?) = some e' → isBit e' = true) →
    step (s.drive a) = .fault (.invalidBitValue port i e)) ∧
  (∀ p i e, (Fault.invalidBitValue p i e).code = 1) ∧
  (Component.rippleCarryAdder8.ports.map Prod.fst = [.m, .a, .b] ∧
    Component.rippleCarryAdder16.ports.map Prod.fst = [.m, .a, .b] ∧
    Component.carryChain8.ports.map Prod.fst = [.cin, .a, .x] ∧
    Component.carryChain16.ports.map Prod.fst = [.cin, .a, .x] ∧
    Component.overflowDetector8.ports.map Prod.fst = [.c] ∧
    Component.overflowDetector16.ports.map Prod.fst = [.c])

/-- R70 and R111: a one-bit component has no wrapper; a non-bit there is refused and nothing is computed. -/
def Obligations.NonBitBelowBoundaryIsRefused : Prop :=
  ∀ (s : State) (a : Application), a.component.vectorWidth = none → a.everyPortFull = true →
    a.everyElementBit = false → step (s.drive a) = .refused .nonBitBelowBoundary

/-- R62, R126, R128: an application ends normally (it completes and the host samples its outputs) exactly when
every port is presented in full with bits. That one with a missing or extra port, or with a port of a one-bit component
that is not one element, does not end normally is the model's DESIGN CHOICE (log 7). -/
def Obligations.EndsNormallyExactlyOnBits : Prop :=
  ∀ (s : State) (a : Application), (EndsNormally (s.drive a) ↔ a.wf = true) ∧
    ((∃ o, report s a = .next o) ↔ a.wf = true)

/-- R110, R128, for every host and every bound: how a program ends depends on the host and on each application's own
report, not on the state it starts in; a fault or a refusal ends it at that statement; a larger bound changes nothing
once it has ended; and a host that applies a list of applications ends with every report, or in the first fault or
refusal. That a host is a function of its samples, and `running`, are the model's DESIGN CHOICE (log 9). -/
def Obligations.ProgramIsItsApplications : Prop :=
  (∀ (h : HostDriver) (k : Nat) (s s' : State) (samples : List Output),
    runProgram h k s samples = endOfHost h (report s') k samples) ∧
  (∀ (h : HostDriver) (k k' : Nat) (s : State) (samples : List Output), k ≤ k' →
    (∀ l, runProgram h k s samples ≠ .running l) → runProgram h k' s samples = runProgram h k s samples) ∧
  (∀ (as : List Application) (s s' : State),
    runProgram (straightLine as) as.length s [] = endOfReports (as.map (report s')) [])

/-! ### Observation functions (00_scope.md) and depth (70_reset_and_hazards.md) -/

/-- R16. -/
def Obligations.UnsignedDecodeRule : Prop :=
  (∀ (n : Nat) (v : BitVec n),
    uval v = ∑ k ∈ Finset.range n, (elem v (n - 1 - k)).toNat * 2 ^ k ∧ uval v ≤ 2 ^ n - 1) ∧
  uval (0b10000001 : BitVec 8) = 129

/-- R17 and R18. -/
def Obligations.SignedDecodeRule : Prop :=
  (∀ (n : Nat) (v : BitVec n), 1 ≤ n →
    (elem v 0 = false → sval v = ∑ i ∈ Finset.Icc 1 (n - 1), ((elem v i).toNat * 2 ^ (n - 1 - i) : Int)) ∧
    (elem v 0 = true →
      sval v = -(1 + ∑ i ∈ Finset.Icc 1 (n - 1), ((!elem v i).toNat * 2 ^ (n - 1 - i) : Int))) ∧
    sval v = (uval v : Int) - 2 ^ n * (elem v 0).toNat ∧
    -(2 ^ (n - 1)) ≤ sval v ∧ sval v ≤ 2 ^ (n - 1) - 1 ∧
    sval (BitVec.intMin n) = -(2 ^ (n - 1)) ∧ sval (BitVec.allOnes n) = -1) ∧
  sval (0b1000000000000011 : BitVec 16) = -32765

/-- R19. -/
def Obligations.BitvectorOfRule : Prop :=
  (∀ (n : Nat) (v : Int), 0 ≤ v ∧ v ≤ 2 ^ n - 1 →
    ∃ u : BitVec n, bitvectorOf n v = some u ∧ (uval u : Int) = v ∧
      (∀ u' : BitVec n, (uval u' : Int) = v → u' = u) ∧
      (∀ i, i < n → ((elem u i).toNat : Int) = v / 2 ^ (n - 1 - i) % 2)) ∧
  (∀ (n : Nat) (v : Int), v < 0 ∨ 2 ^ n ≤ v → bitvectorOf n v = none) ∧
  (∀ (n : Nat) (v : Int), 1 ≤ n → -(2 ^ (n - 1)) ≤ v ∧ v ≤ 2 ^ (n - 1) - 1 →
    ∃ u : BitVec n, bitvectorOfSigned n v = some u ∧ bitvectorOf n (v % 2 ^ n) = some u) ∧
  (∀ (n : Nat) (u : BitVec n), (bitvectorOf n (uval u)).map uval = some (uval u))

/-- R133: the gate level of every carry, of the sign sum and of V, at every width. -/
def Obligations.StructuralDepth : Prop :=
  (∀ n i : Nat, i < n → carryLevel n i = some (4 + 2 * (n - 1 - i))) ∧
  (∀ n : Nat, 1 ≤ n → carryLevel n 0 = some (2 * n + 2) ∧ sumLevel n 0 = some (2 * n + 1)) ∧
  (∀ n : Nat, 2 ≤ n → overflowLevel n = some (2 * n + 3)) ∧
  carryLevel 8 0 = some 18 ∧ carryLevel 16 0 = some 34 ∧ sumLevel 8 0 = some 17 ∧ sumLevel 16 0 = some 33 ∧
  overflowLevel 8 = some 19 ∧ overflowLevel 16 = some 35

/-! ### Sampling (70_reset_and_hazards.md) -/

/-- R127 (sample), R128: after an application has completed the host samples its outputs; a faulted or refused
application reports that instead. -/
def Obligations.SampleReadsSettledOutputs : Prop :=
  (∀ (s : State) (o : Output), s.outputs = some o → s.sample = .next o) ∧
  (∀ (s : State) (a : Application) (iw : InputWord) (i : Instr) (o : Output),
    fetch (s.drive a) = .next iw → decode iw.component iw.bits = .ok i → Gives i o →
    report s a = .next o ∧ ∃ t, step (s.drive a) = .next t ∧ t.sample = .next o) ∧
  (∀ (s : State) (c : Component) (w : Nat) (i : Instr) (o : Output), decode c w = .ok i → Gives i o →
    report s (presentWord c w) = .next o) ∧
  (∀ (s : State) (a : Application) (f : Fault), step (s.drive a) = .fault f → report s a = .fault f) ∧
  (∀ (s : State) (a : Application) (r : Refusal), step (s.drive a) = .refused r → report s a = .refused r)

/-- R28 to R36, R45, R127: every instruction completes with outputs on which the host reads exactly the output ports
of its component, each of its width; and what it reads on each port of each format, source index 0 first. -/
def Obligations.OutputPortsRead : Prop :=
  (∀ i : Instr, ∃ o, Gives i o ∧
    ∀ p : OutPort, (o.read p).map List.length = (encode i).component.outPorts.lookup p) ∧
  (∀ y : Bit, (Output.one y).read .y = some [y] ∧ (Output.ovf y).read .v = some [y]) ∧
  (∀ c s : Bit, (Output.ha c s).read .s = some [s] ∧ (Output.ha c s).read .c = some [c] ∧
    (Output.fa c s).read .s = some [s] ∧ (Output.fa c s).read .cout = some [c]) ∧
  (∀ (v : Bit) (c s : BitVec 8) (o : Output), o = .chain8 c s ∨ o = .rca8 v c s →
    ∃ ls lc : List Bit, o.read .s = some ls ∧ o.read .c = some lc ∧
      ∀ i, i < 8 → ls[i]? = some (elem s i) ∧ lc[i]? = some (elem c i)) ∧
  (∀ (v : Bit) (c s : BitVec 16) (o : Output), o = .chain16 c s ∨ o = .rca16 v c s →
    ∃ ls lc : List Bit, o.read .s = some ls ∧ o.read .c = some lc ∧
      ∀ i, i < 16 → ls[i]? = some (elem s i) ∧ lc[i]? = some (elem c i)) ∧
  (∀ (v : Bit) (c s : BitVec 8), (Output.rca8 v c s).read .cout = some [elem c 0] ∧
    (Output.rca8 v c s).read .v = some [v]) ∧
  (∀ (v : Bit) (c s : BitVec 16), (Output.rca16 v c s).read .cout = some [elem c 0] ∧
    (Output.rca16 v c s).read .v = some [v])
end

