-- ==== Sys2Proof/Laws/Gates.lean ====
section
/-! SUPPORT. What the switches, the gates of either strategy and the one-bit adders compute. -/

namespace Sys2Proof.Machine

@[simp] theorem nmosSwitch_eq (g src : Bit) : nmosSwitch g src = (g && src) := by
  cases g <;> cases src <;> rfl

@[simp] theorem pmosSwitch_eq (g src : Bit) : pmosSwitch g src = (!g && src) := by
  cases g <;> cases src <;> rfl

variable (g : GateStrategy) (a b cin : Bit)

@[simp] theorem gatesOf_not : (gatesOf g).not a = !a := by cases g <;> cases a <;> rfl
@[simp] theorem gatesOf_nand : (gatesOf g).nand a b = !(a && b) := by cases g <;> cases a <;> cases b <;> rfl
@[simp] theorem gatesOf_and : (gatesOf g).and a b = (a && b) := by cases g <;> cases a <;> cases b <;> rfl
@[simp] theorem gatesOf_or : (gatesOf g).or a b = (a || b) := by cases g <;> cases a <;> cases b <;> rfl
@[simp] theorem gatesOf_nor : (gatesOf g).nor a b = !(a || b) := by cases g <;> cases a <;> cases b <;> rfl
@[simp] theorem gatesOf_xor : (gatesOf g).xor a b = (a ^^ b) := by cases g <;> cases a <;> cases b <;> rfl

@[simp] theorem halfAdder_sum : (halfAdder (gatesOf g) a b).sum = (a ^^ b) := gatesOf_xor g a b
@[simp] theorem halfAdder_carry : (halfAdder (gatesOf g) a b).carry = (a && b) := gatesOf_and g a b

/-- A full adder is the integer sum of its three inputs, under either strategy. -/
theorem fullAdder_value :
    a.toNat + b.toNat + cin.toNat
      = 2 * (fullAdder (gatesOf g) a b cin).carry.toNat + (fullAdder (gatesOf g) a b cin).sum.toNat := by
  cases g <;> cases a <;> cases b <;> cases cin <;> rfl

/-- The full adder's outputs do not depend on the strategy. -/
theorem fullAdder_strategy (g' : GateStrategy) :
    fullAdder (gatesOf g) a b cin = fullAdder (gatesOf g') a b cin := by
  cases g <;> cases g' <;> cases a <;> cases b <;> cases cin <;> rfl

@[simp] theorem overflowDetector_eq {n : Nat} (c : BitVec n) :
    overflowDetector (gatesOf g) c = (elem c 0 ^^ elem c 1) := gatesOf_xor g _ _

end Sys2Proof.Machine
end

