-- ==== Sys2Proof/Laws/Vectors.lean ====
section
/-! SUPPORT. Vectors as lists of nets: lengths, elements and values. -/

namespace Sys2Proof.Machine

variable {n : Nat}

/-- Inside a vector, the source index counts from the most significant bit. -/
theorem elem_eq (v : BitVec n) {i : Nat} (h : i < n) : elem v i = v.getLsbD (n - 1 - i) := by
  simp [elem, h]

theorem elem_outside (v : BitVec n) {i : Nat} (h : n ≤ i) : elem v i = false := by
  simp [elem, Nat.not_lt.mpr h]

/-- Bit k counted from the LSB is the element at source index `n - 1 - k`. -/
theorem getLsbD_eq_elem (v : BitVec n) {k : Nat} (h : k < n) : v.getLsbD k = elem v (n - 1 - k) := by
  rw [elem_eq v (by omega)]; congr 1; omega

@[simp] theorem lsbBits_length (v : BitVec n) : (lsbBits v).length = n := by simp [lsbBits]

theorem lsbBits_getElem (v : BitVec n) (k : Nat) (h : k < (lsbBits v).length) :
    (lsbBits v)[k] = v.getLsbD k := by simp [lsbBits]

theorem lsbValue_lt (bs : List Bit) : lsbValue bs < 2 ^ bs.length := by
  induction bs with
  | nil => simp [lsbValue]
  | cons b bs ih =>
    have hb : b.toNat ≤ 1 := Bool.toNat_le b
    simp only [lsbValue, List.length_cons, Nat.pow_succ]
    omega

theorem testBit_lsbValue (bs : List Bit) (k : Nat) : (lsbValue bs).testBit k = bs.getD k false := by
  induction bs generalizing k with
  | nil => simp [lsbValue]
  | cons b bs ih =>
    cases k with
    | zero => cases b <;> simp [lsbValue, Nat.testBit_zero]
    | succ k =>
      have h : (b.toNat + 2 * lsbValue bs) / 2 = lsbValue bs := by
        have hb : b.toNat ≤ 1 := Bool.toNat_le b
        omega
      simp [lsbValue, Nat.testBit_succ, h, ih]

/-- Bit k of a vector built from listed nets is the k-th of them. -/
theorem ofLsbBits_getLsbD {bs : List Bit} (hl : bs.length = n) (k : Nat) :
    (ofLsbBits n bs).getLsbD k = bs.getD k false := by
  rw [ofLsbBits, BitVec.getLsbD_ofNat, testBit_lsbValue]
  by_cases h : k < n
  · simp [h]
  · simp [List.getElem?_eq_none (by omega : bs.length ≤ k), h]

theorem ofLsbBits_toNat {bs : List Bit} (hl : bs.length = n) : (ofLsbBits n bs).toNat = lsbValue bs := by
  rw [ofLsbBits, BitVec.toNat_ofNat, Nat.mod_eq_of_lt (hl ▸ lsbValue_lt bs)]

/-- Listing a vector's elements and building it again gives it back. -/
theorem ofLsbBits_lsbBits (v : BitVec n) : ofLsbBits n (lsbBits v) = v := by
  apply BitVec.eq_of_getLsbD_eq
  intro k hk
  rw [ofLsbBits_getLsbD (lsbBits_length v), List.getD_eq_getElem _ _ (by simpa using hk), lsbBits_getElem]

theorem lsbValue_lsbBits (v : BitVec n) : lsbValue (lsbBits v) = v.toNat := by
  rw [← ofLsbBits_toNat (lsbBits_length v), ofLsbBits_lsbBits]

/-- Listing after building, for a list of the vector's width. -/
theorem lsbBits_ofLsbBits {bs : List Bit} (hl : bs.length = n) : lsbBits (ofLsbBits n bs) = bs := by
  apply List.ext_getElem
  · simp [hl]
  · intro k h₁ h₂
    rw [lsbBits_getElem, ofLsbBits_getLsbD hl, List.getD_eq_getElem _ _ h₂]

end Sys2Proof.Machine
end

