-- ==== Sys2Proof/Laws/Ripple.lean ====
section
/-! SUPPORT. What the ripple of R84 and the conditioning of R88 can do, once. -/

namespace Sys2Proof.Machine

variable {α : Type} (e : GateEval α)

theorem ripple_length (as xs : List α) (cin : α) (h : as.length = xs.length) :
    (ripple e as xs cin).length = as.length := by
  induction as generalizing xs cin with
  | nil => cases xs <;> rfl
  | cons a as ih =>
    cases xs with
    | nil => simp at h
    | cons x xs => simp only [ripple, List.length_cons]; rw [ih]; simpa using h

@[simp] theorem conditionOperand_length (bs : List α) (m : α) : (conditionOperand e bs m).length = bs.length := by
  simp [conditionOperand]

/-- The carry into position k (counted from the LSB) of a ripple: the carry out of the position before, or the
chain's carry-in at the LSB. -/
def carryBefore (rs : List (SumResult α)) (cin : α) : Nat → α
  | 0 => cin
  | k + 1 => (rs[k]?.map SumResult.carry).getD cin

/-- Position k of a ripple is one full adder on the k-th operands and the carry into the position. -/
theorem ripple_getElem (as xs : List α) (cin : α) (k : Nat) (ha : k < as.length) (hx : k < xs.length)
    (hr : k < (ripple e as xs cin).length) :
    (ripple e as xs cin)[k] = fullAdder e as[k] xs[k] (carryBefore (ripple e as xs cin) cin k) := by
  induction as generalizing xs cin k with
  | nil => simp at ha
  | cons a as ih =>
    cases xs with
    | nil => simp at hx
    | cons x xs =>
      cases k with
      | zero => rfl
      | succ k =>
        have hr' : k < (ripple e as xs (fullAdder e a x cin).carry).length := by simpa [ripple] using hr
        have := ih xs (fullAdder e a x cin).carry k (by simpa using ha) (by simpa using hx) hr'
        cases k with
        | zero => simpa [ripple, carryBefore] using this
        | succ j =>
          have hj : j < (ripple e as xs (fullAdder e a x cin).carry).length := by omega
          simpa [ripple, carryBefore, List.getElem?_eq_getElem hj] using this

variable (g : GateStrategy)

/-- Conditioning inverts every element under M = 1 and none under M = 0. -/
theorem conditionOperand_eq (bs : List Bit) (m : Bit) :
    conditionOperand (gatesOf g) bs m = bs.map (· ^^ m) := by simp [conditionOperand]

@[simp] theorem conditionOperand_false (bs : List Bit) : conditionOperand (gatesOf g) bs false = bs := by
  simp [conditionOperand_eq]

/-- The ripple does not depend on the strategy. -/
theorem ripple_strategy (g' : GateStrategy) (as xs : List Bit) (cin : Bit) :
    ripple (gatesOf g) as xs cin = ripple (gatesOf g') as xs cin := by
  induction as generalizing xs cin with
  | nil => cases xs <;> rfl
  | cons a as ih =>
    cases xs with
    | nil => rfl
    | cons x xs => simp only [ripple]; rw [fullAdder_strategy g a x cin g', ih]

/-- The carry out of the last position of a ripple, or its carry-in if it has no position. -/
def lastCarry (rs : List (SumResult Bit)) (cin : Bit) : Bit := (rs.getLast?.map SumResult.carry).getD cin

/-- The value of a ripple: the sums, with the last carry above them, are the sum of the operands and the
carry-in. -/
theorem ripple_value (as xs : List Bit) (cin : Bit) (h : as.length = xs.length) :
    lsbValue ((ripple (gatesOf g) as xs cin).map SumResult.sum)
        + 2 ^ as.length * (lastCarry (ripple (gatesOf g) as xs cin) cin).toNat
      = lsbValue as + lsbValue xs + cin.toNat := by
  induction as generalizing xs cin with
  | nil => cases xs <;> simp_all [ripple, lsbValue, lastCarry]
  | cons a as ih =>
    cases xs with
    | nil => simp at h
    | cons x xs =>
      have hl : as.length = xs.length := by simpa using h
      have ih := ih xs (fullAdder (gatesOf g) a x cin).carry hl
      have hf := fullAdder_value g a x cin
      have hc : lastCarry (ripple (gatesOf g) (a :: as) (x :: xs) cin) cin
          = lastCarry (ripple (gatesOf g) as xs (fullAdder (gatesOf g) a x cin).carry)
              (fullAdder (gatesOf g) a x cin).carry := by
        rw [ripple]
        cases hr : ripple (gatesOf g) as xs (fullAdder (gatesOf g) a x cin).carry with
        | nil => rfl
        | cons r rs => simp [lastCarry, List.getLast?_cons]
      rw [hc]
      simp only [ripple, List.map_cons, lsbValue, List.length_cons, Nat.pow_succ]
      have : 2 ^ as.length * 2 * (lastCarry (ripple (gatesOf g) as xs (fullAdder (gatesOf g) a x cin).carry)
              (fullAdder (gatesOf g) a x cin).carry).toNat
          = 2 * (2 ^ as.length * (lastCarry (ripple (gatesOf g) as xs (fullAdder (gatesOf g) a x cin).carry)
              (fullAdder (gatesOf g) a x cin).carry).toNat) := by ring
      omega

end Sys2Proof.Machine
end

