-- ==== Sys2Proof/Laws/State.lean ====
section
/-! SUPPORT. One lemma per field per update of State, and what each host action and `settle` does. -/

namespace Sys2Proof.Machine

variable (s : State) (a : Application) (o : Output) (c : Component) (w : Nat)

@[simp] theorem reset_driven : State.reset.driven = none := rfl
@[simp] theorem reset_outputs : State.reset.outputs = none := rfl

@[simp] theorem drive_driven : (s.drive a).driven = some a := rfl
@[simp] theorem drive_outputs : (s.drive a).outputs = none := rfl
@[simp] theorem drive_gateStrategy : (s.drive a).gateStrategy = s.gateStrategy := rfl
@[simp] theorem drive_drive (a' : Application) : (s.drive a).drive a' = s.drive a' := rfl

@[simp] theorem driveWord_driven : (s.driveWord c w).driven = some (presentWord c w) := rfl
@[simp] theorem driveWord_outputs : (s.driveWord c w).outputs = none := rfl
@[simp] theorem driveWord_gateStrategy : (s.driveWord c w).gateStrategy = s.gateStrategy := rfl

@[simp] theorem undrive_driven : s.undrive.driven = none := rfl
@[simp] theorem undrive_outputs : s.undrive.outputs = none := rfl
@[simp] theorem undrive_gateStrategy : s.undrive.gateStrategy = s.gateStrategy := rfl

@[simp] theorem settle_eq : settle o s = .next { s with outputs := some o } := rfl

/-- `settle` writes the output ports and nothing else. -/
theorem settle_next {t : State} (h : settle o s = .next t) :
    t.gateStrategy = s.gateStrategy ∧ t.driven = s.driven ∧ t.outputs = some o := by
  cases h; exact ⟨rfl, rfl, rfl⟩

/-- `fetch` reads the input ports only. -/
theorem fetch_congr {s t : State} (h : s.driven = t.driven) : fetch s = fetch t := by
  unfold fetch; rw [h]

/-- Sampling answers exactly the outputs that are settled. -/
theorem sample_next : s.sample = .next o ↔ s.outputs = some o := by
  unfold State.sample; cases s.outputs <;> simp

/-- One statement of a host program answers exactly what the step leaves on the output ports. -/
theorem applyAndSample_next (t : State) :
    applyAndSample s a = .next (t, o) ↔ step (s.drive a) = .next t ∧ t.outputs = some o := by
  unfold applyAndSample
  cases step (s.drive a) with
  | next t' =>
    dsimp only; rw [← sample_next]
    by_cases ht : t' = t
    · subst ht; cases t'.sample <;> simp
    · cases t'.sample <;> simp [ht]
  | fault r => simp
  | refused r => simp

@[simp] theorem fetch_drive : fetch (s.drive a) = validate a := rfl

@[simp] theorem fetch_outputs (x : Option Output) : fetch { s with outputs := x } = fetch s := rfl

end Sys2Proof.Machine
end

