-- ==== Sys2Proof/Laws/Exec.lean ====
section
/-! SUPPORT. What `exec` and `step` can do, once: the outputs an instruction gives, and the inversion of `step`. -/

namespace Sys2Proof.Machine

/-- The outputs an instruction gives under a strategy: the one thing `exec` computes. -/
def outputsOf (g : GateStrategy) : Instr → Output
  | .nmos a b => .one (nmosSwitch a b)
  | .pmos a b => .one (pmosSwitch a b)
  | .gateNot a => .one ((gatesOf g).not a)
  | .gateNand a b => .one ((gatesOf g).nand a b)
  | .gateAnd a b => .one ((gatesOf g).and a b)
  | .gateOr a b => .one ((gatesOf g).or a b)
  | .gateNor a b => .one ((gatesOf g).nor a b)
  | .gateXor a b => .one ((gatesOf g).xor a b)
  | .halfAdd a b => .ha (halfAdder (gatesOf g) a b).carry (halfAdder (gatesOf g) a b).sum
  | .fullAdd a b c => .fa (fullAdder (gatesOf g) a b c).carry (fullAdder (gatesOf g) a b c).sum
  | .chain8 c a x => .chain8 (carryChain (gatesOf g) a x c).carries (carryChain (gatesOf g) a x c).sum
  | .chain16 c a x => .chain16 (carryChain (gatesOf g) a x c).carries (carryChain (gatesOf g) a x c).sum
  | .add8 a b =>
    let r := adderSubtractor (gatesOf g) a b false
    .rca8 r.overflow r.carries r.sum
  | .sub8 a b =>
    let r := adderSubtractor (gatesOf g) a b true
    .rca8 r.overflow r.carries r.sum
  | .add16 a b =>
    let r := adderSubtractor (gatesOf g) a b false
    .rca16 r.overflow r.carries r.sum
  | .sub16 a b =>
    let r := adderSubtractor (gatesOf g) a b true
    .rca16 r.overflow r.carries r.sum
  | .ovf8 c => .ovf (overflowDetector (gatesOf g) c)
  | .ovf16 c => .ovf (overflowDetector (gatesOf g) c)

/-- `exec` puts the instruction's outputs on the output ports and does nothing else. -/
theorem exec_eq (i : Instr) (s : State) :
    exec i s = .next { s with outputs := some (outputsOf s.gateStrategy i) } := by
  cases i <;> rfl

/-- The inversion of `step`: a next state comes from an accepted, decoded input word, and differs from the state
before in the output ports only. -/
theorem step_next {s t : State} (h : step s = .next t) :
    ∃ iw i, fetch s = .next iw ∧ decode iw.component iw.bits = .ok i ∧
      t = { s with outputs := some (outputsOf s.gateStrategy i) } := by
  unfold step at h
  split at h
  · rename_i iw hf
    split at h
    · rename_i i hd
      rw [exec_eq] at h
      exact ⟨iw, i, hf, hd, by cases h; rfl⟩
    · cases h
  · cases h
  · cases h

end Sys2Proof.Machine
end

