-- ==== Sys2Proof/Laws/Adder.lean ====
section
/-! SUPPORT. The adder-subtractor against the chain, elements of a ripple's ports, and independence of the gate
strategy. -/

namespace Sys2Proof.Machine

variable (g g' : GateStrategy) {n : Nat}

theorem chainPortsOf_sum_elem (rs : List (SumResult Bit)) (h : rs.length = n) {i : Nat} (hi : i < n) :
    elem (chainPortsOf n rs).sum i = (rs[n - 1 - i]'(by omega)).sum := by
  rw [elem_eq _ hi, chainPortsOf, ofLsbBits_getLsbD (by simp [h])]
  have : n - 1 - i < rs.length := by omega
  simp [List.getD_eq_getElem?_getD, this]

theorem chainPortsOf_carry_elem (rs : List (SumResult Bit)) (h : rs.length = n) {i : Nat} (hi : i < n) :
    elem (chainPortsOf n rs).carries i = (rs[n - 1 - i]'(by omega)).carry := by
  rw [elem_eq _ hi, chainPortsOf, ofLsbBits_getLsbD (by simp [h])]
  have : n - 1 - i < rs.length := by omega
  simp [List.getD_eq_getElem?_getD, this]

/-- The conditioned operand is B, inverted under M = 1. -/
theorem conditioned_eq (b : BitVec n) (m : Bit) : conditioned (gatesOf g) b m = flippedBy b m := by
  apply BitVec.eq_of_getLsbD_eq
  intro i hi
  rw [conditioned, conditionOperand_eq, ofLsbBits_getLsbD (by simp)]
  cases m <;> simp [flippedBy, lsbBits, hi]

theorem conditionOperand_lsbBits (b : BitVec n) (m : Bit) :
    conditionOperand (gatesOf g) (lsbBits b) m = lsbBits (flippedBy b m) := by
  rw [← conditioned_eq g, conditioned, lsbBits_ofLsbBits (by simp)]

/-- An adder's S and C are a chain's on the conditioned operand with `CIN = M`. -/
theorem adderSubtractor_ports (a b : BitVec n) (m : Bit) :
    (adderSubtractor (gatesOf g) a b m).sum = (carryChain (gatesOf g) a (flippedBy b m) m).sum ∧
    (adderSubtractor (gatesOf g) a b m).carries = (carryChain (gatesOf g) a (flippedBy b m) m).carries := by
  unfold adderSubtractor rippleAddSub carryChain
  rw [conditionOperand_lsbBits]; exact ⟨rfl, rfl⟩

/-- An adder's V is the exclusive or of its own two top carries. -/
theorem adderSubtractor_overflow (a b : BitVec n) (m : Bit) :
    (adderSubtractor (gatesOf g) a b m).overflow
      = (elem (adderSubtractor (gatesOf g) a b m).carries 0 ^^ elem (adderSubtractor (gatesOf g) a b m).carries 1) :=
  overflowDetector_eq g _

theorem carryChain_strategy (a x : BitVec n) (cin : Bit) :
    carryChain (gatesOf g) a x cin = carryChain (gatesOf g') a x cin := by
  unfold carryChain; rw [ripple_strategy g g']

theorem adderSubtractor_strategy (a b : BitVec n) (m : Bit) :
    adderSubtractor (gatesOf g) a b m = adderSubtractor (gatesOf g') a b m := by
  unfold adderSubtractor rippleAddSub
  simp only [ripple_strategy g g', conditionOperand_eq, overflowDetector_eq]

/-- An instruction's outputs do not depend on the strategy. -/
theorem outputsOf_strategy (i : Instr) : outputsOf g i = outputsOf g' i := by
  cases i <;>
    simp only [outputsOf, gatesOf_not, gatesOf_nand, gatesOf_and, gatesOf_or, gatesOf_nor, gatesOf_xor,
      overflowDetector_eq, halfAdder_sum, halfAdder_carry, fullAdder_strategy g _ _ _ g',
      carryChain_strategy g g', adderSubtractor_strategy g g']

/-- `Gives` is decided by the outputs under any one strategy. -/
theorem gives_iff (i : Instr) (o : Output) : Gives i o ↔ outputsOf g i = o := by
  constructor
  · intro h
    have := h { State.reset with gateStrategy := g }
    rw [exec_eq] at this
    simpa using this
  · rintro rfl s
    rw [exec_eq, outputsOf_strategy]

end Sys2Proof.Machine
end

