-- ==== Sys2Proof/Laws/Observe.lean ====
section
/-! SUPPORT. The observation functions against the numbers of a bit vector. -/

namespace Sys2Proof.Machine

variable {n : Nat}

theorem weightedSum_congr {f f' : Nat → Bit} {m : Nat} (h : ∀ k, k < m → f k = f' k) :
    weightedSum f m = weightedSum f' m := by
  induction m with
  | zero => rfl
  | succ m ih => rw [weightedSum, weightedSum, ih fun k hk => h k (by omega), h m (by omega)]

/-- The weighted sum of a number's low bits is the number modulo a power of two. -/
theorem weightedSum_testBit (x m : Nat) : weightedSum x.testBit m = x % 2 ^ m := by
  induction m with
  | zero => simp [weightedSum, Nat.mod_one]
  | succ m ih => rw [weightedSum, ih, Nat.mod_pow_succ, Nat.toNat_testBit, Nat.mul_comm]

/-- `uval` is the number a bit vector stands for. -/
theorem uval_eq_toNat (v : BitVec n) : uval v = v.toNat := by
  rw [uval, weightedSum_congr (f' := v.toNat.testBit), weightedSum_testBit, Nat.mod_eq_of_lt v.isLt]
  intro k hk
  rw [elem_eq v (by omega), ← BitVec.testBit_toNat]
  congr 1; omega

theorem uval_lt (v : BitVec n) : uval v < 2 ^ n := uval_eq_toNat v ▸ v.isLt

/-- The complemented sum: the low bits' distance to all ones. -/
theorem weightedSum_not (f : Nat → Bit) (m : Nat) :
    weightedSum (fun k => !f k) m + weightedSum f m + 1 = 2 ^ m := by
  induction m with
  | zero => simp [weightedSum]
  | succ m ih => rw [weightedSum, weightedSum, Nat.pow_succ]; cases f m <;> simp <;> omega

/-- `uval` splits into the sign bit and the sum `sval` reads. -/
theorem uval_split (v : BitVec n) (h : 1 ≤ n) :
    uval v = weightedSum (fun k => elem v (n - 1 - k)) (n - 1) + (elem v 0).toNat * 2 ^ (n - 1) := by
  obtain ⟨m, rfl⟩ : ∃ m, n = m + 1 := ⟨n - 1, by omega⟩
  simp [uval, weightedSum]

/-- The source's identity for `sval` is the number less 2^N for a set sign bit. -/
theorem sval_eq (v : BitVec n) (h : 1 ≤ n) : sval v = (uval v : Int) - 2 ^ n * ((elem v 0).toNat : Int) := by
  have hs := uval_split v h
  have hn := weightedSum_not (fun k => elem v (n - 1 - k)) (n - 1)
  have hp : 2 ^ n = 2 * 2 ^ (n - 1) := by rw [← Nat.pow_succ']; congr 1; omega
  have hp' : (2 : Int) ^ n = 2 * 2 ^ (n - 1) := by exact_mod_cast hp
  unfold sval
  cases hv : elem v 0 <;> simp only [hv] at hs ⊢ <;> simp at hs ⊢
  · omega
  · zify at hs hn; rw [hp']; linarith

/-- `sval` is the two's complement number a bit vector stands for. -/
theorem sval_eq_toInt (v : BitVec n) (h : 1 ≤ n) : sval v = v.toInt := by
  rw [sval_eq v h, uval_eq_toNat, BitVec.toInt_eq_msb_cond, BitVec.msb_eq_getLsbD_last, elem_eq v (by omega)]
  cases v.getLsbD (n - 1 - 0) <;> simp_all

end Sys2Proof.Machine
end

