-- ==== Sys2Proof/Laws/Words.lean ====
section
/-! SUPPORT. Fields of packed words, appended patterns, and bits listed highest position first. -/

namespace Sys2Proof.Machine

variable {n : Nat}

theorem wordField_toNat {m : Nat} (x : BitVec m) (lo k : Nat) : wordField x.toNat lo k = x.extractLsb' lo k := rfl

theorem wordBit_toNat {m : Nat} (x : BitVec m) (p : Nat) : wordBit x.toNat p = x.getLsbD p :=
  BitVec.testBit_toNat _

theorem wordField_value (w lo k : Nat) : (wordField w lo k).toNat = w / 2 ^ lo % 2 ^ k := by
  simp [wordField, Nat.shiftRight_eq_div_pow]

theorem wordBit_value (w p : Nat) : (wordBit w p).toNat = w / 2 ^ p % 2 := by
  simp [wordBit, Nat.toNat_testBit]

/-- R57 for one field: the port's source index against the word's position. -/
theorem elem_wordField (w lo : Nat) {i : Nat} (hi : i < n) :
    elem (wordField w lo n) i = wordBit w (lo + n - 1 - i) := by
  have h : lo + (n - 1 - i) = lo + n - 1 - i := by omega
  rw [elem_eq _ hi, wordField, wordBit, BitVec.getLsbD_ofNat, Nat.testBit_shiftRight, h]
  simp; omega

theorem append_value {m : Nat} (a : BitVec m) (b : BitVec n) : (a ++ b).toNat = a.toNat * 2 ^ n + b.toNat := by
  rw [BitVec.toNat_append, ← Nat.shiftLeft_add_eq_or_of_lt b.isLt, Nat.shiftLeft_eq]

/-- A one-bit port above two vector ports of one width: the value of an adder's or a chain's input word. -/
theorem pattern_value (m : Bit) (a b : BitVec n) :
    (BitVec.ofBool m ++ a ++ b).toNat = m.toNat * 2 ^ (n + n) + uval a * 2 ^ n + uval b := by
  rw [append_value, append_value, uval_eq_toNat, uval_eq_toNat, BitVec.toNat_ofBool]; ring

theorem pattern_top (m : Bit) (a b : BitVec n) : (BitVec.ofBool m ++ a ++ b).getLsbD (n + n) = m := by
  rw [BitVec.getLsbD_append, if_neg (by omega), BitVec.getLsbD_append, if_neg (by omega)]; simp

theorem pattern_high (m : Bit) (a b : BitVec n) : (BitVec.ofBool m ++ a ++ b).extractLsb' n n = a := by
  apply BitVec.eq_of_getLsbD_eq
  intro i hi
  rw [BitVec.getLsbD_extractLsb', BitVec.getLsbD_append, if_neg (by omega), BitVec.getLsbD_append,
    if_pos (by omega)]
  simp [hi]

theorem pattern_low (m : Bit) (a b : BitVec n) : (BitVec.ofBool m ++ a ++ b).extractLsb' 0 n = b := by
  apply BitVec.eq_of_getLsbD_eq
  intro i hi
  rw [BitVec.getLsbD_extractLsb', BitVec.getLsbD_append, if_pos (by omega)]
  simp [hi]

/-- Packing highest position first is the value of the reversed list. -/
theorem packBits_eq (bs : List Bit) : packBits bs = lsbValue bs.reverse := by
  unfold packBits
  rw [← List.foldr_reverse]
  induction bs.reverse with
  | nil => rfl
  | cons b bs ih => simp [lsbValue, ih]; omega

theorem packBits_lt (bs : List Bit) : packBits bs < 2 ^ bs.length := by
  rw [packBits_eq]; simpa using lsbValue_lt bs.reverse

@[simp] theorem wordBits_length (k w : Nat) : (wordBits k w).length = k := by simp [wordBits]

/-- Listing a word's bits and packing them gives the word back. -/
theorem packBits_wordBits (k w : Nat) (h : w < 2 ^ k) : packBits (wordBits k w) = w := by
  rw [packBits_eq]
  apply Nat.eq_of_testBit_eq
  intro p
  rw [testBit_lsbValue]
  by_cases hp : p < k
  · simp [wordBits, List.getD_eq_getElem?_getD, hp, wordBit]
    congr 1; omega
  · have hw : w < 2 ^ p := lt_of_lt_of_le h (Nat.pow_le_pow_right (by omega) (by omega))
    rw [Nat.testBit_lt_two_pow hw]
    simp [wordBits, List.getD_eq_getElem?_getD, show k ≤ p by omega]

/-- Cutting a list of the right length into ports loses nothing and gives every port its width. -/
theorem splitPorts_spec {α : Type} (ns : List Nat) (l : List α) (h : l.length = ns.sum) :
    (splitPorts ns l).flatten = l ∧ (splitPorts ns l).map List.length = ns := by
  induction ns generalizing l with
  | nil => simp at h; subst h; simp [splitPorts]
  | cons k ns ih =>
    simp at h
    have := ih (l.drop k) (by simp; omega)
    simp [splitPorts, this]; omega

end Sys2Proof.Machine
end

