-- ==== Sys2Proof/Laws/Boundary.lean ====
section
/-! SUPPORT. What the boundary of an application can do, once. -/

namespace Sys2Proof.Machine

theorem firstNonBitFrom_eq_none (p : PortName) (i : Nat) (es : List Int) :
    firstNonBitFrom p i es = none ↔ es.all isBit = true := by
  induction es generalizing i with
  | nil => simp [firstNonBitFrom]
  | cons e es ih => by_cases h : isBit e <;> simp [firstNonBitFrom, h, ih]

theorem firstNonBit_eq_none (ps : List PortName) (ports : List (List Int)) (h : ps.length = ports.length) :
    firstNonBit ps ports = none ↔ (ports.all fun p => p.all isBit) = true := by
  induction ps generalizing ports with
  | nil => cases ports <;> simp_all [firstNonBit]
  | cons p ps ih =>
    cases ports with
    | nil => simp at h
    | cons q qs =>
      have ih := ih qs (by simpa using h)
      rw [firstNonBit, List.all_cons]
      cases hq : firstNonBitFrom p 0 q with
      | none => simp only [ih, (firstNonBitFrom_eq_none p 0 q).1 hq, Bool.true_and]
      | some f =>
        have hn : q.all isBit = false := by
          rw [← Bool.not_eq_true, ← firstNonBitFrom_eq_none p 0 q, hq]; simp
        simp [hn]

theorem everyPortFull_present {a : Application} (h : a.everyPortFull = true) :
    a.ports.length = a.component.ports.length := by
  simpa using congrArg List.length (beq_iff_eq.1 h)

/-- The inversion of `validate`: what it accepts is the packed input word of the component. -/
theorem validate_next {a : Application} {iw : InputWord} (h : validate a = .next iw) :
    iw = ⟨a.component, packPorts a.ports⟩ := by
  unfold validate at h
  repeat' split at h
  all_goals first | (cases h; rfl) | cases h

/-- `validate` accepts exactly the well-formed applications. -/
theorem validate_accepts_iff (a : Application) : (∃ iw, validate a = .next iw) ↔ a.wf = true := by
  unfold validate Application.wf Application.everyPortPresent Application.everyPortFull
    Application.everyElementBit lengthsFit
  by_cases h : a.ports.length = a.component.ports.length
  · rw [if_neg (by simpa using h)]
    cases hv : a.component.vectorWidth with
    | some n =>
      by_cases hf : (List.map List.length a.ports == List.map Prod.snd a.component.ports) = true
      · simp only [hf, if_true, h, beq_self_eq_true, Bool.true_and]
        rw [← firstNonBit_eq_none (a.component.ports.map Prod.fst) a.ports (by simp [h])]
        cases firstNonBit (a.component.ports.map Prod.fst) a.ports <;> simp
      · simp [hf]
    | none =>
      by_cases hf : (List.map List.length a.ports == List.map Prod.snd a.component.ports) = true
      · simp only [hf, if_true, h, beq_self_eq_true, Bool.true_and]
        by_cases hb : (a.ports.all fun p => p.all isBit) = true <;> simp only [hb] <;> simp
      · simp [hf]
  · rw [if_pos h]; simp [h]

/-- An accepted word is a word of its component's format. -/
theorem validate_fits {a : Application} {iw : InputWord} (h : validate a = .next iw) :
    iw.bits < 2 ^ iw.component.width := by
  have hw := (validate_accepts_iff a).1 ⟨iw, h⟩
  simp only [Application.wf, Bool.and_eq_true] at hw
  have hl : a.ports.flatten.length = a.component.width := by
    rw [List.length_flatten, Component.width, beq_iff_eq.1 hw.1.2]
  have := packBits_lt (a.ports.flatten.map fun e => e == 1)
  rw [List.length_map, hl] at this
  rw [validate_next h]
  exact this

end Sys2Proof.Machine
end

