-- ==== Sys2Proof/Laws/PerInstr.lean ====
section
/-! SUPPORT. The family EncodedWordFits: every instruction's input word is a word of its component's format. One
lemma per constructor. -/

namespace Sys2Proof.Laws.EncodedWordFits

/-- The encoded word has no 1 above its format's width (30_encoding.md R56). -/
def Statement (i : Instr) : Prop := (encode i).bits < 2 ^ (encode i).component.width

theorem nmos (g src : Bit) : Statement (.nmos g src) := BitVec.isLt _
theorem pmos (g src : Bit) : Statement (.pmos g src) := BitVec.isLt _
theorem gateNot (a : Bit) : Statement (.gateNot a) := BitVec.isLt _
theorem gateNand (a b : Bit) : Statement (.gateNand a b) := BitVec.isLt _
theorem gateAnd (a b : Bit) : Statement (.gateAnd a b) := BitVec.isLt _
theorem gateOr (a b : Bit) : Statement (.gateOr a b) := BitVec.isLt _
theorem gateNor (a b : Bit) : Statement (.gateNor a b) := BitVec.isLt _
theorem gateXor (a b : Bit) : Statement (.gateXor a b) := BitVec.isLt _
theorem halfAdd (a b : Bit) : Statement (.halfAdd a b) := BitVec.isLt _
theorem fullAdd (a b cin : Bit) : Statement (.fullAdd a b cin) := BitVec.isLt _
theorem chain8 (cin : Bit) (a x : BitVec 8) : Statement (.chain8 cin a x) := BitVec.isLt _
theorem chain16 (cin : Bit) (a x : BitVec 16) : Statement (.chain16 cin a x) := BitVec.isLt _
theorem add8 (a b : BitVec 8) : Statement (.add8 a b) := BitVec.isLt _
theorem sub8 (a b : BitVec 8) : Statement (.sub8 a b) := BitVec.isLt _
theorem add16 (a b : BitVec 16) : Statement (.add16 a b) := BitVec.isLt _
theorem sub16 (a b : BitVec 16) : Statement (.sub16 a b) := BitVec.isLt _
theorem ovf8 (c : BitVec 8) : Statement (.ovf8 c) := BitVec.isLt _
theorem ovf16 (c : BitVec 16) : Statement (.ovf16 c) := BitVec.isLt _

end Sys2Proof.Laws.EncodedWordFits
end

