-- ==== Sys2Proof/Tests/Slice0.lean ====
section
/-! SUPPORT. Small tests. Expected values are from spec/95_test_vectors.md, or from the example of the rule named;
none was read off the model. -/

namespace Sys2Proof.Tests

open Sys2Proof Sys2Proof.Machine

/-! ### Decoding: one word per constructor, written out from 30_encoding.md R56 and R60 -/

theorem test_decode_nmos : decode .nmosSwitch 0b10 = .ok (.nmos true false) := by decide
theorem test_decode_pmos : decode .pmosSwitch 0b01 = .ok (.pmos false true) := by decide
theorem test_decode_not : decode .gateNot 0b1 = .ok (.gateNot true) := by decide
theorem test_decode_nand : decode .gateNand 0b10 = .ok (.gateNand true false) := by decide
theorem test_decode_and : decode .gateAnd 0b01 = .ok (.gateAnd false true) := by decide
theorem test_decode_or : decode .gateOr 0b10 = .ok (.gateOr true false) := by decide
theorem test_decode_nor : decode .gateNor 0b01 = .ok (.gateNor false true) := by decide
theorem test_decode_xor : decode .gateXor 0b10 = .ok (.gateXor true false) := by decide
theorem test_decode_ha : decode .halfAdder 0b01 = .ok (.halfAdd false true) := by decide
theorem test_decode_fa : decode .fullAdder 0b100 = .ok (.fullAdd true false false) := by decide
theorem test_decode_chain8 :
    decode .carryChain8 0b10000001001111111 = .ok (.chain8 true 0b00000010 0b01111111) := by decide
theorem test_decode_chain16 :
    decode .carryChain16 0x080030001 = .ok (.chain16 false 0x8003 0x0001) := by decide
theorem test_decode_add8 :
    decode .rippleCarryAdder8 0b01000000110001011 = .ok (.add8 0b10000001 0b10001011) := by decide
theorem test_decode_sub8 :
    decode .rippleCarryAdder8 0b10000010100000011 = .ok (.sub8 0b00000101 0b00000011) := by decide
theorem test_decode_add16 : decode .rippleCarryAdder16 0x012FF3401 = .ok (.add16 0x12FF 0x3401) := by decide
theorem test_decode_sub16 : decode .rippleCarryAdder16 0x180038001 = .ok (.sub16 0x8003 0x8001) := by decide
theorem test_decode_ovf8 : decode .overflowDetector8 0b10000011 = .ok (.ovf8 0b10000011) := by decide
theorem test_decode_ovf16 : decode .overflowDetector16 0x7FFF = .ok (.ovf16 0x7FFF) := by decide

/-- A word with a 1 above its format is rejected by name. -/
theorem test_decode_rejects_wide :
    decode .rippleCarryAdder8 0x20000 = .error (.wordOutsideFormat .rippleCarryAdder8 0x20000) := by decide

/-- The widths of 20_memory.md R45. -/
theorem test_widths :
    [Component.nmosSwitch, .gateNot, .gateXor, .halfAdder, .fullAdder, .carryChain8, .carryChain16,
      .rippleCarryAdder8, .rippleCarryAdder16, .overflowDetector8, .overflowDetector16].map Component.width
      = [2, 1, 2, 2, 3, 17, 33, 17, 33, 8, 16] := by decide

/-- Bare table words: the adders' mask, and the widest one-byte row. -/
theorem test_table_words :
    decodeTableWord 24 0x10503 = some (.sub8 5 3) ∧ decodeTableWord 40 0 = some (.add16 0 0) ∧
    decodeTableWord 16 0x8000 = some (.ovf16 0x8000) ∧ decodeTableWord 8 0x83 = some (.ovf8 0x83) ∧
    decodeTableWord 24 0x20000 = none := by decide

/-! ### Well-formedness: an ill-formed application for each check -/

/-- The 5 - 3 of SUB8, as a host presents it. -/
def fiveMinusThree : Application :=
  ⟨.rippleCarryAdder8, [[1], [0, 0, 0, 0, 0, 1, 0, 1], [0, 0, 0, 0, 0, 0, 1, 1]]⟩

/-- The host program P6: element 7 of A is 2. -/
def faultyAdd : Application :=
  ⟨.rippleCarryAdder8, [[0], [1, 0, 0, 0, 0, 0, 0, 2], [0, 0, 0, 0, 0, 0, 0, 1]]⟩

theorem test_wf_accepts : fiveMinusThree.wf = true := by decide
theorem test_wf_missing_port :
    (Application.mk .gateXor [[1]]).everyPortPresent = false ∧ (Application.mk .gateXor [[1]]).wf = false := by decide
theorem test_wf_short_port :
    (Application.mk .overflowDetector8 [[1, 0]]).everyPortFull = false ∧
    (Application.mk .overflowDetector8 [[1, 0]]).wf = false := by decide
theorem test_wf_not_a_bit : faultyAdd.everyElementBit = false ∧ faultyAdd.wf = false := by decide

/-! ### One step -/

/-- The output word after one step on a driven input word, under a gate strategy. -/
def wordAfter (g : GateStrategy) (c : Component) (w : Nat) : Option Nat :=
  match step (({ State.reset with gateStrategy := g }).driveWord c w) with
  | .next t => t.outputs.map Output.word
  | .fault _ => none
  | .refused _ => none

/-- The fault of one step on an application. -/
def faultOf (a : Application) : Option Fault :=
  match step (State.reset.drive a) with
  | .next _ => none
  | .fault f => some f
  | .refused _ => none

/-- The refusal of one step on an application. -/
def refusalOf (a : Application) : Option Refusal :=
  match step (State.reset.drive a) with
  | .next _ => none
  | .fault _ => none
  | .refused r => some r

theorem test_nmos : [0, 1, 2, 3].map (wordAfter .direct .nmosSwitch) = [some 0, some 0, some 0, some 1] := by decide
theorem test_pmos : [0, 1, 2, 3].map (wordAfter .direct .pmosSwitch) = [some 0, some 1, some 0, some 0] := by decide
theorem test_not : [0, 1].map (wordAfter .transistor .gateNot) = [some 1, some 0] := by decide
theorem test_nand :
    [0, 1, 2, 3].map (wordAfter .transistor .gateNand) = [some 1, some 1, some 1, some 0] := by decide
theorem test_and : [0, 1, 2, 3].map (wordAfter .transistor .gateAnd) = [some 0, some 0, some 0, some 1] := by decide
theorem test_or : [0, 1, 2, 3].map (wordAfter .transistor .gateOr) = [some 0, some 1, some 1, some 1] := by decide
theorem test_nor : [0, 1, 2, 3].map (wordAfter .transistor .gateNor) = [some 1, some 0, some 0, some 0] := by decide
theorem test_xor : [0, 1, 2, 3].map (wordAfter .transistor .gateXor) = [some 0, some 1, some 1, some 0] := by decide
theorem test_ha : [0, 1, 2, 3].map (wordAfter .direct .halfAdder) = [some 0, some 1, some 1, some 2] := by decide
theorem test_fa :
    [0, 1, 2, 3, 4, 5, 6, 7].map (wordAfter .transistor .fullAdder)
      = [some 0, some 1, some 1, some 2, some 1, some 2, some 2, some 3] := by decide
theorem test_chain8_ripple : wordAfter .direct .carryChain8 0x1AA55 = some 0xFF00 := by decide
theorem test_chain8_source : wordAfter .transistor .carryChain8 0x0818B = some 0x830C := by decide
theorem test_chain16_ripple : wordAfter .direct .carryChain16 0x1FFFF0000 = some 0xFFFF0000 := by decide
theorem test_chain16_sum : wordAfter .direct .carryChain16 0x012344321 = some 0x02205555 := by decide
theorem test_add8_source : wordAfter .transistor .rippleCarryAdder8 0x0818B = some 0x1830C := by decide
theorem test_add8_signed_overflow : wordAfter .direct .rippleCarryAdder8 0x07F01 = some 0x17F80 := by decide
theorem test_sub8_borrow : wordAfter .direct .rippleCarryAdder8 0x10305 = some 0x003FE := by decide
theorem test_sub8_negate_min : wordAfter .transistor .rippleCarryAdder8 0x10080 = some 0x17F80 := by decide
theorem test_add16 : wordAfter .direct .rippleCarryAdder16 0x012FF3401 = some 0x030FF4700 := by decide
theorem test_add16_overflow : wordAfter .direct .rippleCarryAdder16 0x080008000 = some 0x180000000 := by decide
theorem test_sub16_source : wordAfter .transistor .rippleCarryAdder16 0x180038001 = some 0x0FFFF0002 := by decide
theorem test_sub16_overflow : wordAfter .direct .rippleCarryAdder16 0x17FFFFFFF = some 0x17FFF8000 := by decide
theorem test_ovf8 :
    [0x83, 0x40, 0xC0, 0x3F].map (wordAfter .direct .overflowDetector8) = [some 1, some 1, some 0, some 0] := by decide
theorem test_ovf16 :
    [0xFFFF, 0x7FFF, 0x8000, 0].map (wordAfter .direct .overflowDetector16)
      = [some 0, some 1, some 1, some 0] := by decide

/-- The bare table word of SUB16 runs as the first instruction after reset. -/
theorem test_fetch_word_after_reset :
    (match step (State.reset.withFetchWord 40 0x180038001) with
      | .next t => t.outputs
      | .fault _ => none
      | .refused _ => none) = some (.rca16 false 0xFFFF 0x0002) := by decide

/-- COUT reads the net C[0] (10_state.md R34). -/
theorem test_read_cout :
    (Output.rca8 true 0x83 0x0C).read .cout = some [true] ∧
    (Output.rca8 true 0x83 0x0C).read .s = some [false, false, false, false, true, true, false, false] := by decide

/-- Host program P6: InvalidBitValue at port A, index 7, value 2. -/
theorem test_fault_p6 : faultOf faultyAdd = some (.invalidBitValue .a 7 2) := by decide

/-- R112: WidthMismatch is checked before InvalidBitValue. -/
theorem test_width_before_bits :
    faultOf ⟨.rippleCarryAdder8, [[7], [2, 0], [0, 0, 0, 0, 0, 0, 0, 0]]⟩ = some (.widthMismatch 8 [2, 8]) := by decide

/-- R112: M before A before B, index ascending. -/
theorem test_fault_order :
    faultOf ⟨.rippleCarryAdder8, [[3], [4, 0, 0, 0, 0, 0, 0, 0], [0, 0, 0, 0, 0, 0, 0, 0]]⟩
      = some (.invalidBitValue .m 0 3) := by decide

/-- R111: a non-bit at a one-bit adder is refused. -/
theorem test_refuses_non_bit : refusalOf ⟨.halfAdder, [[1], [-1]]⟩ = some .nonBitBelowBoundary := by decide

/-- A port that is not driven: no application of 70_reset_and_hazards.md R127. -/
theorem test_refuses_incomplete : refusalOf ⟨.gateAnd, [[1], []]⟩ = some .incompleteInput := by decide

/-- R128: a fault ends a host program; the second statement does not run. -/
theorem test_program_ends_at_fault :
    runProgram (straightLine [faultyAdd, fiveMinusThree]) 2 State.reset [] = .faulted (.invalidBitValue .a 7 2) := by
  decide

/-- Host program P5: |a - b| for unsigned bytes, branching on the borrow of the first SUB8. -/
def absDifference (a b : Nat) : HostDriver
  | [] => some (presentWord .rippleCarryAdder8 (2 ^ 16 + a * 2 ^ 8 + b))
  | [o] => if o.read .cout = some [true] then none else some (presentWord .rippleCarryAdder8 (2 ^ 16 + b * 2 ^ 8 + a))
  | _ => none

/-- P5 from both of its start states: 3 and 5, 5 and 3 (spec/95_test_vectors.md section 3). -/
theorem test_program_p5 :
    runProgram (absDifference 3 5) 4 State.reset [] = .normal [.rca8 false 0x03 0xFE, .rca8 false 0xFD 0x02] ∧
    runProgram (absDifference 5 3) 4 State.reset [] = .normal [.rca8 false 0xFD 0x02] := by decide

/-! ### Witnesses: for each statement with hypotheses, a case that meets them -/

theorem witness_EncodeOfDecode :
    decode .rippleCarryAdder8 0x1FFFF = .ok (.sub8 0xFF 0xFF) ∧ 0x1FFFF < 2 ^ Component.rippleCarryAdder8.width ∧
    ¬ 0x20000 < 2 ^ Component.rippleCarryAdder8.width := by decide
theorem witness_WordPositionsOfPorts :
    0x1FFFF < 2 ^ 17 ∧ 0x1FFFFFFFF < 2 ^ 33 ∧ 0xFF < 2 ^ 8 ∧ 0xFFFF < 2 ^ 16 ∧ 0 < 8 ∧ 15 < 16 := by decide
theorem witness_OutputWordLayout : 7 < 8 ∧ 15 < 16 := by decide
theorem witness_EveryWordIsLegal : 0b111 < 2 ^ Component.fullAdder.width := by decide
theorem witness_StepRunsDecodedInstruction :
    fetch (State.reset.driveWord .rippleCarryAdder8 0x10503) = .next ⟨.rippleCarryAdder8, 0x10503⟩ ∧
    decode .rippleCarryAdder8 0x10503 = .ok (.sub8 5 3) := ⟨rfl, by decide⟩
theorem witness_DrivenWordIsFetched : 0xFFFF < 2 ^ Component.overflowDetector16.width := by decide
theorem witness_TableWordRunsNext : decodeTableWord 8 7 = some (.fullAdd true true true) := by decide

/-- The state one step after 5 - 3 is driven: it witnesses the statements about a next state. -/
def settledSub : State :=
  { State.reset.drive fiveMinusThree with outputs := some (.rca8 false 0xFD 2) }

theorem witness_StepChangesOutputsOnly : step (State.reset.drive fiveMinusThree) = .next settledSub := rfl
theorem witness_StepIsIdempotent : step (State.reset.drive fiveMinusThree) = .next settledSub := rfl
theorem witness_StepKeepsSettledOnDriven :
    SettledOnDriven (State.reset.drive fiveMinusThree) ∧ step (State.reset.drive fiveMinusThree) = .next settledSub :=
  ⟨(by intro o h; cases h), rfl⟩
theorem witness_SettledOnDriven_holds_of_outputs :
    settledSub.outputs = some (.rca8 false 0xFD 2) ∧ fetch settledSub = .next ⟨.rippleCarryAdder8, 0x10503⟩ :=
  ⟨rfl, rfl⟩

theorem witness_NmosSwitchRule : (isBit 2 && isBit 1) = false := by decide
theorem witness_PmosSwitchRule : (isBit 0 && isBit (-1)) = false := by decide
theorem witness_HalfAdderRule : directGates = directGates ∨ directGates = transistorGates := .inl rfl
theorem witness_ChainIsFullAdderPerPosition :
    (0 < 8 ∧ 0 ≠ 8 - 1) ∧ (7 < 8 ∧ 7 = 8 - 1) ∧ (0 < 1 ∧ 0 = 1 - 1) := by decide
theorem witness_ChainClosedForm : 0 < 16 ∧ 15 < 16 ∧ 1 ≤ 1 ∧ 2 ≤ 2 := by decide
theorem witness_CarryDependsOnLowerPositionsOnly :
    3 < 8 ∧ ∀ j, j < 8 → 3 ≤ j →
      elem (0x1F : BitVec 8) j = elem (0xFF : BitVec 8) j ∧ elem (0x00 : BitVec 8) j = elem (0xE0 : BitVec 8) j := by
  decide
theorem witness_UnsignedSubtractionLaw : 1 ≤ 1 ∧ 1 ≤ 16 := by decide
theorem witness_DetectorReadsTwoCarries :
    2 ≤ 8 ∧ elem (0x80 : BitVec 8) 0 = elem (0xBF : BitVec 8) 0 ∧
    elem (0x80 : BitVec 8) 1 = elem (0xBF : BitVec 8) 1 := by decide
theorem witness_Ovf8Rule : elem (0xC0 : BitVec 8) 0 = elem (0xC0 : BitVec 8) 1 ∧ 7 < 8 := by decide
theorem witness_Ovf16Rule : elem (0x3FFF : BitVec 16) 0 = elem (0x3FFF : BitVec 16) 1 ∧ 15 < 16 := by decide

/-- Every clause of the signed law at a boundary: T = 127, -128, 128 and -129 at width 8. -/
theorem witness_SignedArithmeticLaw :
    2 ≤ 2 ∧ 2 ≤ 8 ∧ signedTarget (126 : BitVec 8) 1 false = 127 ∧ signedTarget (129 : BitVec 8) 1 true = -128 ∧
    signedTarget (127 : BitVec 8) 1 false = 128 ∧ signedTarget (128 : BitVec 8) 1 true = -129 := by decide
theorem witness_OverflowIsSignFormOnConditionedOperand : 2 ≤ 2 ∧ 2 ≤ 16 := by decide

theorem witness_WidthMismatchRule :
    [1, 0].length ≠ 1 ∧ (List.replicate 7 (0 : Int)).length ≠ 8 ∧ (List.replicate 9 (0 : Int)).length ≠ 8 ∧
    (List.replicate 15 (0 : Int)).length ≠ 16 ∧ (List.replicate 17 (0 : Int)).length ≠ 16 := by decide

/-- Port A (k = 1), element 7, value 2 of P6, with every element before it a bit; and its width clause. -/
theorem witness_InvalidBitValueRule :
    faultyAdd.component.vectorWidth = some 8 ∧ faultyAdd.everyPortFull = true ∧
    (faultyAdd.component.ports[1]?).map Prod.fst = some .a ∧
    (faultyAdd.ports[1]?).bind (fun p => p[7]?) = some 2 ∧ isBit 2 = false ∧
    (∀ k', k' < 2 → ∀ i', i' < 8 → (k' < 1 ∨ (k' = 1 ∧ i' < 7)) →
      ((faultyAdd.ports[k']?).bind (fun p => p[i']?)).all isBit = true) ∧
    (Application.mk .overflowDetector8 [[1]]).everyPortPresent = true ∧
    (Application.mk .overflowDetector8 [[1]]).everyPortFull = false := by decide
theorem witness_NonBitBelowBoundaryIsRefused :
    Component.fullAdder.vectorWidth = none ∧ (Application.mk .fullAdder [[1], [0], [2]]).everyPortFull = true ∧
    (Application.mk .fullAdder [[1], [0], [2]]).everyElementBit = false := by decide

/-- Both clauses of `FaultsExactlyOnBadInput`, for a chain, an adder and a detector. -/
theorem witness_FaultsExactlyOnBadInput :
    fiveMinusThree.everyPortPresent = true ∧ fiveMinusThree.wf = true ∧
    faultyAdd.everyPortPresent = true ∧ faultyAdd.wf = false ∧
    (presentWord .carryChain16 0x1FFFF0000).wf = true ∧ (presentWord .overflowDetector8 0x83).wf = true ∧
    (Application.mk .overflowDetector8 [[1]]).everyPortPresent = true ∧
    (Application.mk .overflowDetector8 [[1]]).wf = false := by decide

theorem witness_ProgramIsItsApplications :
    1 ≤ 2 ∧ runProgram (absDifference 5 3) 1 State.reset [] = .normal [.rca8 false 0xFD 0x02] := by decide

/-- Its clauses: settled outputs, a word that decodes, a fault and a refusal. -/
theorem witness_SampleReadsSettledOutputs :
    settledSub.outputs = some (.rca8 false 0xFD 2) ∧
    fetch (State.reset.drive fiveMinusThree) = .next ⟨.rippleCarryAdder8, 0x10503⟩ ∧
    decode .rippleCarryAdder8 0x10503 = .ok (.sub8 5 3) ∧ Gives (.nmos true true) (.one true) ∧
    decode .nmosSwitch 3 = .ok (.nmos true true) ∧ fetch (State.reset.drive ⟨.nmosSwitch, [[1], [1]]⟩) = .next ⟨.nmosSwitch, 3⟩ ∧
    faultOf faultyAdd = some (.invalidBitValue .a 7 2) ∧
    refusalOf ⟨.halfAdder, [[1], [-1]]⟩ = some .nonBitBelowBoundary :=
  ⟨rfl, rfl, by decide, fun _ => rfl, by decide, rfl, by decide, by decide⟩
theorem witness_OutputPortsRead :
    (Output.chain8 1 2 = .chain8 1 2 ∨ Output.chain8 1 2 = .rca8 true 1 2) ∧ 7 < 8 ∧ 15 < 16 := by decide

theorem witness_SignedDecodeRule :
    1 ≤ 1 ∧ elem (0x7F : BitVec 8) 0 = false ∧ elem (0x80 : BitVec 8) 0 = true := by decide
theorem witness_BitvectorOfRule :
    ((0 : Int) ≤ 0 ∧ (0 : Int) ≤ 2 ^ 8 - 1) ∧ ((0 : Int) ≤ 255 ∧ (255 : Int) ≤ 2 ^ 8 - 1) ∧ ((-1 : Int) < 0) ∧
    ((2 : Int) ^ 8 ≤ 256) ∧ (-(2 ^ (8 - 1)) ≤ (-128 : Int) ∧ (-128 : Int) ≤ 2 ^ (8 - 1) - 1) ∧
    (-(2 ^ (8 - 1)) ≤ (127 : Int) ∧ (127 : Int) ≤ 2 ^ (8 - 1) - 1) ∧
    (∀ i, i < 8 → elem (255 : BitVec 8) i = true) := by decide
theorem witness_StructuralDepth : 0 < 8 ∧ 7 < 8 ∧ 1 ≤ 1 ∧ 2 ≤ 2 := by decide

end Sys2Proof.Tests
end

section
/-! PROOFS. The observation functions of 00_scope.md (R16 to R19) and the step as one run of `exec`. -/

namespace Sys2Proof.Scope

open Sys2Proof Sys2Proof.Machine

/-! ### The positional sum as a finite sum -/

theorem weightedSum_eq_sum_range (f : Nat → Bit) (m : Nat) :
    weightedSum f m = ∑ k ∈ Finset.range m, (f k).toNat * 2 ^ k := by
  induction m with
  | zero => rfl
  | succ m ih => rw [weightedSum, ih, Finset.sum_range_succ]

/-- Weight k belongs to source index m - k: the sum of R16 over the weights is the sum of R17 over the indices
1 to m. -/
theorem weightedSum_eq_sum_index (f : Nat → Bit) (m : Nat) :
    weightedSum (fun k => f (m - k)) m = ∑ i ∈ Finset.Icc 1 m, (f i).toNat * 2 ^ (m - i) := by
  rw [weightedSum_eq_sum_range]
  refine Finset.sum_nbij' (fun k => m - k) (fun i => m - i) ?_ ?_ ?_ ?_ ?_
  case refine_5 =>
    intro k hk
    rw [Nat.sub_sub_self (Finset.mem_range.mp hk).le]
  all_goals simp only [Finset.mem_range, Finset.mem_Icc]; omega

/-! ### Unsigned decode and encode -/

variable {n : Nat}

/-- One element of a vector, read off the vector's value. -/
theorem elem_value (u : BitVec n) {i : Nat} (hi : i < n) :
    (elem u i).toNat = uval u / 2 ^ (n - 1 - i) % 2 := by
  rw [elem_eq u hi, uval_eq_toNat, ← BitVec.testBit_toNat, Nat.toNat_testBit]

/-- `bitvector_of` answers exactly the vector whose unsigned value is the number asked for. -/
theorem bitvectorOf_eq_some_iff (v : Int) (u : BitVec n) : bitvectorOf n v = some u ↔ (uval u : Int) = v := by
  rw [uval_eq_toNat]
  constructor
  · intro h
    unfold bitvectorOf at h
    split at h
    next hv =>
      cases h
      have hlt : v.toNat < 2 ^ n := by zify; rw [Int.toNat_of_nonneg hv.1]; exact hv.2
      rw [BitVec.toNat_ofNat, Nat.mod_eq_of_lt hlt, Int.toNat_of_nonneg hv.1]
    next => cases h
  · rintro rfl
    have hlt : (u.toNat : Int) < 2 ^ n := by exact_mod_cast u.isLt
    simp [bitvectorOf, hlt]

theorem bitvectorOf_uval (u : BitVec n) : bitvectorOf n (uval u) = some u :=
  (bitvectorOf_eq_some_iff _ u).2 rfl

theorem bitvectorOf_defined {v : Int} (h : 0 ≤ v ∧ v < 2 ^ n) : ∃ u, bitvectorOf n v = some u :=
  ⟨_, if_pos h⟩

theorem bitvectorOf_refused {v : Int} (h : v < 0 ∨ 2 ^ n ≤ v) : bitvectorOf n v = none :=
  if_neg (by omega)

/-- Inside the signed range the signed encoding is the unsigned one of the residue, which is always defined. -/
theorem bitvectorOfSigned_defined {v : Int} (h : -(2 ^ (n - 1)) ≤ v ∧ v ≤ 2 ^ (n - 1) - 1) :
    ∃ u, bitvectorOfSigned n v = some u ∧ bitvectorOf n (v % 2 ^ n) = some u := by
  have hpos : (0 : Int) < 2 ^ n := by positivity
  obtain ⟨u, hu⟩ := bitvectorOf_defined ⟨Int.emod_nonneg v hpos.ne', Int.emod_lt_of_pos v hpos⟩
  exact ⟨u, (if_pos h).trans hu, hu⟩

/-! ### Signed decode -/

/-- The first case of R17: a clear sign bit. -/
theorem sval_of_sign_clear {v : BitVec n} (h : elem v 0 = false) :
    sval v = ∑ i ∈ Finset.Icc 1 (n - 1), ((elem v i).toNat * 2 ^ (n - 1 - i) : Int) := by
  rw [sval, if_pos h, weightedSum_eq_sum_index (elem v)]
  push_cast; rfl

/-- The second case of R17: a set sign bit, over the complemented elements. -/
theorem sval_of_sign_set {v : BitVec n} (h : elem v 0 = true) :
    sval v = -(1 + ∑ i ∈ Finset.Icc 1 (n - 1), ((!elem v i).toNat * 2 ^ (n - 1 - i) : Int)) := by
  rw [sval, if_neg (by simp [h]), weightedSum_eq_sum_index (fun i => !elem v i)]
  push_cast; rfl

theorem sval_range (v : BitVec n) (hn : 1 ≤ n) : -(2 ^ (n - 1)) ≤ sval v ∧ sval v ≤ 2 ^ (n - 1) - 1 := by
  rw [sval_eq_toInt v hn]
  exact ⟨BitVec.le_toInt v, Int.le_sub_one_of_lt BitVec.toInt_lt⟩

theorem sval_intMin (hn : 1 ≤ n) : sval (BitVec.intMin n) = -(2 ^ (n - 1)) := by
  rw [sval_eq_toInt _ hn, BitVec.toInt_intMin_of_pos hn]

theorem sval_allOnes (hn : 1 ≤ n) : sval (BitVec.allOnes n) = -1 := by
  rw [sval_eq_toInt _ hn, BitVec.toInt_allOnes, if_pos (show 0 < n from hn)]

/-! ### The step -/

/-- Once the driven word is accepted and decoded, the step is `exec` of the instruction. -/
theorem step_of_decoded {s : State} {iw : InputWord} {i : Instr} (hf : fetch s = .next iw)
    (hd : decode iw.component iw.bits = .ok i) : step s = exec i s := by
  simp only [step, hf, hd]

/-! ### The obligations -/

/-- Settles O7: both tests of `step` are passed, and the arm that is left is `exec`. -/
theorem stepRunsDecodedInstruction : Obligations.StepRunsDecodedInstruction :=
  fun _ _ _ => step_of_decoded

/-- Settles O51: R16's sum is `weightedSum` as a finite sum, and the range is that of the bit vector's number. -/
theorem unsignedDecodeRule : Obligations.UnsignedDecodeRule := by
  refine ⟨fun n v => ⟨weightedSum_eq_sum_range _ n, Nat.le_sub_one_of_lt (uval_lt v)⟩, ?_⟩
  rw [uval_eq_toNat]; rfl

/-- Settles O52: R17 by its two cases, R18 through the two's complement number `sval` stands for. -/
theorem signedDecodeRule : Obligations.SignedDecodeRule := by
  refine ⟨fun n v hn => ?_, ?_⟩
  · obtain ⟨hmin, hmax⟩ := sval_range v hn
    exact ⟨sval_of_sign_clear, sval_of_sign_set, sval_eq v hn, hmin, hmax, sval_intMin hn, sval_allOnes hn⟩
  · rw [sval_eq_toInt _ (by decide)]; rfl

/-- Settles O53: every clause follows from `bitvectorOf_eq_some_iff`, the vector of a value being unique. -/
theorem bitvectorOfRule : Obligations.BitvectorOfRule := by
  refine ⟨fun n v hv => ?_, fun n v => bitvectorOf_refused, fun n v _ => bitvectorOfSigned_defined,
    fun n u => by rw [bitvectorOf_uval]; rfl⟩
  obtain ⟨u, hu⟩ := bitvectorOf_defined (n := n) ⟨hv.1, Int.lt_of_le_sub_one hv.2⟩
  obtain rfl := (bitvectorOf_eq_some_iff v u).1 hu
  refine ⟨u, hu, rfl, fun u' h' => ?unique, fun i hi => ?bits⟩
  case unique =>
    exact Option.some.inj (((bitvectorOf_eq_some_iff _ u').2 h').symm.trans hu)
  case bits =>
    exact_mod_cast elem_value u hi

end Sys2Proof.Scope
end

section
/-! PROOFS. The output ports (10_state.md R28 to R36): what the host reads on them, and that there is nothing to read
before an application completes. -/

namespace Sys2Proof.Ports

open Sys2Proof Sys2Proof.Machine

/-! ### Before an application completes -/

/-- The other half of `sample_next`: without settled outputs the host observes nothing. -/
theorem sample_refused {s : State} (h : s.outputs = none) : s.sample = .refused .notSettled := by
  rw [State.sample, h]

theorem step_of_nothing_driven {s : State} (h : s.driven = none) : step s = .refused .noApplication := by
  have hf : fetch s = .refused .noApplication := by rw [fetch, h]
  rw [step, hf]

/-! ### Reading a vector port -/

section Vectors

variable {n : Nat}

theorem vectorElems_getElem? (v : BitVec n) {i : Nat} (h : i < n) : (vectorElems v)[i]? = some (elem v i) := by
  simp [vectorElems, h]

/-- Where S and C are read as the vectors s and c, each is read element by element, source index 0 first. -/
theorem reads_elementwise {o : Output} {s c : BitVec n} (hs : o.read .s = some (vectorElems s))
    (hc : o.read .c = some (vectorElems c)) :
    ∃ ls lc : List Bit, o.read .s = some ls ∧ o.read .c = some lc ∧
      ∀ i, i < n → ls[i]? = some (elem s i) ∧ lc[i]? = some (elem c i) :=
  ⟨_, _, hs, hc, fun _ hi => ⟨vectorElems_getElem? s hi, vectorElems_getElem? c hi⟩⟩

end Vectors

/-! ### The ports of a format -/

/-- The output ports that an output format carries, with their widths: what `Component.outPorts` says of a component,
said of the outputs themselves. -/
def formatPorts : Output → List (OutPort × Nat)
  | .one _ => [(.y, 1)]
  | .ovf _ => [(.v, 1)]
  | .ha _ _ => [(.s, 1), (.c, 1)]
  | .fa _ _ => [(.s, 1), (.cout, 1)]
  | .chain8 _ _ => [(.s, 8), (.c, 8)]
  | .chain16 _ _ => [(.s, 16), (.c, 16)]
  | .rca8 _ _ _ => [(.s, 8), (.c, 8), (.cout, 1), (.v, 1)]
  | .rca16 _ _ _ => [(.s, 16), (.c, 16), (.cout, 1), (.v, 1)]

/-- Exactly the ports of the format can be read, each of its width. -/
theorem read_length (o : Output) (p : OutPort) : (o.read p).map List.length = (formatPorts o).lookup p := by
  cases o <;> cases p <;> rfl

/-- An instruction answers in the output format of the component it is encoded for. -/
theorem formatPorts_outputsOf (g : GateStrategy) (i : Instr) :
    formatPorts (outputsOf g i) = (encode i).component.outPorts := by
  cases i <;> rfl

/-! ### The obligations -/

/-- Settles O15: reset and every drive leave no outputs, and reset drives nothing. -/
theorem nothingObservableBeforeCompletion : Obligations.NothingObservableBeforeCompletion :=
  ⟨reset_driven, reset_outputs, sample_refused reset_outputs, step_of_nothing_driven reset_driven,
    fun s a => sample_refused (drive_outputs s a), drive_drive⟩

/-- Settles O56: an instruction's outputs are of its component's format, whose ports are those that can be read; the
vectors of a chain and of an adder are read element by element. -/
theorem outputPortsRead : Obligations.OutputPortsRead := by
  refine ⟨fun i => ⟨outputsOf .direct i, (gives_iff .direct i _).2 rfl, fun p => ?ports⟩,
    fun _ => ⟨rfl, rfl⟩, fun _ _ => ⟨rfl, rfl, rfl, rfl⟩, fun v c s o ho => ?vectors8,
    fun v c s o ho => ?vectors16, fun _ _ _ => ⟨rfl, rfl⟩, fun _ _ _ => ⟨rfl, rfl⟩⟩
  case ports => rw [read_length, formatPorts_outputsOf]
  case vectors8 => obtain rfl | rfl := ho <;> exact reads_elementwise rfl rfl
  case vectors16 => obtain rfl | rfl := ho <;> exact reads_elementwise rfl rfl

end Sys2Proof.Ports
end

section
/-! PROOFS. There is no memory (20_memory.md R46, R49): a step reads the driven inputs and writes the output ports,
and so an application reports the same from every state. -/

namespace Sys2Proof.Memory

open Sys2Proof Sys2Proof.Machine

/-! ### A step is a function of the driven inputs -/

/-- An accepted and decoded word is given its outputs, whichever gate strategy the state holds. -/
theorem step_of_decoded_eq {s : State} {iw : InputWord} {i : Instr} (hf : fetch s = .next iw)
    (hd : decode iw.component iw.bits = .ok i) :
    step s = .next { s with outputs := some (outputsOf .direct i) } := by
  rw [Scope.step_of_decoded hf hd, exec_eq, outputsOf_strategy s.gateStrategy .direct]

/-- Two states on which the same is driven step alike: both complete with the same outputs, or both end with the
same fault or the same refusal. -/
theorem step_congr {s s' : State} (h : s.driven = s'.driven) :
    (∃ o, step s = .next { s with outputs := some o } ∧ step s' = .next { s' with outputs := some o }) ∨
    (∃ f, step s = .fault f ∧ step s' = .fault f) ∨
    (∃ r, step s = .refused r ∧ step s' = .refused r) := by
  have hfetch : fetch s' = fetch s := (fetch_congr h).symm
  cases hf : fetch s with
  | next iw =>
    cases hd : decode iw.component iw.bits with
    | ok i => exact .inl ⟨_, step_of_decoded_eq hf hd, step_of_decoded_eq (hfetch.trans hf) hd⟩
    | error e =>
      obtain ⟨c, w⟩ := e
      exact .inr (.inr ⟨.wordOutsideFormat c w, by simp only [step, hfetch, hf, hd, and_self]⟩)
  | fault f => exact .inr (.inl ⟨f, by simp only [step, hfetch, hf, and_self]⟩)
  | refused r => exact .inr (.inr ⟨r, by simp only [step, hfetch, hf, and_self]⟩)

/-! ### What an application reports, by how its step ends -/

section Report

variable {s : State} {a : Application}

theorem report_of_next {t : State} {o : Output} (h : step (s.drive a) = .next t) (ho : t.outputs = some o) :
    report s a = .next o := by
  rw [report, (applyAndSample_next s a o t).2 ⟨h, ho⟩]

theorem report_of_fault {f : Fault} (h : step (s.drive a) = .fault f) : report s a = .fault f := by
  rw [report, applyAndSample, h]

theorem report_of_refused {r : Refusal} (h : step (s.drive a) = .refused r) : report s a = .refused r := by
  rw [report, applyAndSample, h]

end Report

/-! ### The obligations -/

/-- Settles O13: after the drive both states hold the same inputs, so `step_congr` ends both applications alike. -/
theorem reportDependsOnInputsOnly : Obligations.ReportDependsOnInputsOnly := by
  intro s s' a
  have hdriven : (s.drive a).driven = (s'.drive a).driven := by rw [drive_driven, drive_driven]
  obtain ⟨o, h, h'⟩ | ⟨f, h, h'⟩ | ⟨r, h, h'⟩ := step_congr hdriven
  · rw [report_of_next h rfl, report_of_next h' rfl]
  · rw [report_of_fault h, report_of_fault h']
  · rw [report_of_refused h, report_of_refused h']

/-- Settles O14: the step leaves the inputs driven, so the second one fetches and decodes the same word and writes
the outputs that already stand on the ports. -/
theorem stepIsIdempotent : Obligations.StepIsIdempotent := by
  intro s t h
  obtain ⟨iw, i, hf, hd, rfl⟩ := step_next h
  have hf' : fetch { s with outputs := some (outputsOf s.gateStrategy i) } = .next iw :=
    (fetch_outputs s _).trans hf
  rw [Scope.step_of_decoded hf' hd, exec_eq]

/-- Settles O10: the frame is part of the inversion of `step`. -/
theorem stepChangesOutputsOnly : Obligations.StepChangesOutputsOnly := by
  intro s t h
  obtain ⟨_, i, _, _, ht⟩ := step_next h
  exact ⟨outputsOf s.gateStrategy i, ht⟩

end Sys2Proof.Memory
end

section
/-! PROOFS. Input and output words (30_encoding.md): decoder against encoder, where the fields of a word stand, and
which words and applications complete. -/

namespace Sys2Proof.Encoding

open Sys2Proof Sys2Proof.Machine

/-! ### Fields of a word -/

section Fields

variable {n : Nat} (w : Nat)

theorem uval_wordField (lo : Nat) : uval (wordField w lo n) = w / 2 ^ lo % 2 ^ n := by
  rw [uval_eq_toNat, wordField_value]

/-- A field at position 0 holds what the word is modulo the field's range. -/
theorem uval_lowField : uval (wordField w 0 n) = w % 2 ^ n := by
  rw [uval_wordField, Nat.pow_zero, Nat.div_one]

/-- A bit of a word is its field of width one. -/
theorem ofBool_wordBit (p : Nat) : BitVec.ofBool (wordBit w p) = wordField w p 1 := by
  apply BitVec.eq_of_toNat_eq
  rw [BitVec.toNat_ofBool, wordBit_value, wordField_value, Nat.pow_one]

/-- Two neighbouring fields, the higher one first, are one field. -/
theorem wordField_append {lo hi : Nat} (m : Nat) (h : hi = lo + n) :
    wordField w hi m ++ wordField w lo n = wordField w lo (m + n) := by
  subst h
  apply BitVec.eq_of_toNat_eq
  rw [append_value, wordField_value, wordField_value, wordField_value, Nat.pow_add, ← Nat.div_div_eq_div_mul,
    Nat.pow_add, Nat.mul_comm (2 ^ m), Nat.mod_mul]
  ring

end Fields

/-! ### A word from its fields, and the fields from a word -/

section Patterns

variable {n w : Nat}

/-- The field that covers a whole word is the word. -/
theorem wordField_all (h : w < 2 ^ n) : (wordField w 0 n).toNat = w := by
  rw [← uval_eq_toNat, uval_lowField, Nat.mod_eq_of_lt h]

theorem bit_of_word (h : w < 2 ^ 1) : (BitVec.ofBool (wordBit w 0)).toNat = w := by
  rw [ofBool_wordBit, wordField_all h]

theorem pair_of_word (h : w < 2 ^ 2) : (BitVec.ofBool (wordBit w 1) ++ BitVec.ofBool (wordBit w 0)).toNat = w := by
  rw [ofBool_wordBit, ofBool_wordBit, wordField_append w 1 (Nat.zero_add 1).symm, wordField_all h]

/-- A word is its top bit above its two vector fields: the pattern of a chain or an adder, and with n = 1 of a full
adder. -/
theorem pattern_of_word (h : w < 2 ^ (1 + n + n)) :
    (BitVec.ofBool (wordBit w (n + n)) ++ wordField w n n ++ wordField w 0 n).toNat = w := by
  rw [ofBool_wordBit, wordField_append w 1 rfl, wordField_append w (1 + n) (Nat.zero_add n).symm, wordField_all h]

theorem triple_of_word (h : w < 2 ^ 3) :
    (BitVec.ofBool (wordBit w 2) ++ BitVec.ofBool (wordBit w 1) ++ BitVec.ofBool (wordBit w 0)).toNat = w := by
  rw [ofBool_wordBit w 1, ofBool_wordBit w 0]
  exact pattern_of_word h

variable (m : Bit) (a b : BitVec n)

theorem wordBit_pattern : wordBit (BitVec.ofBool m ++ a ++ b).toNat (n + n) = m := by
  rw [wordBit_toNat, pattern_top]

theorem highField_pattern : wordField (BitVec.ofBool m ++ a ++ b).toNat n n = a := by
  rw [wordField_toNat, pattern_high]

theorem lowField_pattern : wordField (BitVec.ofBool m ++ a ++ b).toNat 0 n = b := by
  rw [wordField_toNat, pattern_low]

theorem highField_append : wordField (a ++ b).toNat n n = a := by
  rw [wordField_toNat, BitVec.extractLsb'_append_eq_left]

theorem lowField_append : wordField (a ++ b).toNat 0 n = b := by
  rw [wordField_toNat, BitVec.extractLsb'_append_eq_right]

/-- A vector's number, read as a field of its own width. -/
theorem wordField_self : wordField a.toNat 0 n = a := by
  rw [wordField_toNat, BitVec.extractLsb'_eq_self]

theorem wordBit_pair (x y : Bit) :
    wordBit (BitVec.ofBool x ++ BitVec.ofBool y).toNat 1 = x ∧
    wordBit (BitVec.ofBool x ++ BitVec.ofBool y).toNat 0 = y := by
  cases x <;> cases y <;> exact ⟨rfl, rfl⟩

end Patterns

/-! ### The decoder and the encoder -/

/-- `decode` answers exactly for the words of the format, with their fields. -/
theorem decode_eq_ok_iff {c : Component} {w : Nat} {i : Instr} :
    decode c w = .ok i ↔ w < 2 ^ c.width ∧ decodeFields c w = i := by
  unfold decode
  split <;> simp [*]

theorem decode_of_fits {c : Component} {w : Nat} (h : w < 2 ^ c.width) : decode c w = .ok (decodeFields c w) :=
  decode_eq_ok_iff.2 ⟨h, rfl⟩

/-- The family of Sys2Proof/Laws/PerInstr.lean, for every instruction. -/
theorem encode_fits (i : Instr) : Laws.EncodedWordFits.Statement i := by
  cases i with
  | nmos g src => exact Laws.EncodedWordFits.nmos g src
  | pmos g src => exact Laws.EncodedWordFits.pmos g src
  | gateNot a => exact Laws.EncodedWordFits.gateNot a
  | gateNand a b => exact Laws.EncodedWordFits.gateNand a b
  | gateAnd a b => exact Laws.EncodedWordFits.gateAnd a b
  | gateOr a b => exact Laws.EncodedWordFits.gateOr a b
  | gateNor a b => exact Laws.EncodedWordFits.gateNor a b
  | gateXor a b => exact Laws.EncodedWordFits.gateXor a b
  | halfAdd a b => exact Laws.EncodedWordFits.halfAdd a b
  | fullAdd a b cin => exact Laws.EncodedWordFits.fullAdd a b cin
  | chain8 cin a x => exact Laws.EncodedWordFits.chain8 cin a x
  | chain16 cin a x => exact Laws.EncodedWordFits.chain16 cin a x
  | add8 a b => exact Laws.EncodedWordFits.add8 a b
  | sub8 a b => exact Laws.EncodedWordFits.sub8 a b
  | add16 a b => exact Laws.EncodedWordFits.add16 a b
  | sub16 a b => exact Laws.EncodedWordFits.sub16 a b
  | ovf8 c => exact Laws.EncodedWordFits.ovf8 c
  | ovf16 c => exact Laws.EncodedWordFits.ovf16 c

/-- An adder's mode bit selects the operation and stands at the top of its word (R60). -/
theorem encode_addSub8 (m : Bit) (a b : BitVec 8) :
    encode (if m then .sub8 a b else .add8 a b) = ⟨.rippleCarryAdder8, (BitVec.ofBool m ++ a ++ b).toNat⟩ := by
  cases m <;> rfl

theorem encode_addSub16 (m : Bit) (a b : BitVec 16) :
    encode (if m then .sub16 a b else .add16 a b) = ⟨.rippleCarryAdder16, (BitVec.ofBool m ++ a ++ b).toNat⟩ := by
  cases m <;> rfl

theorem decodeFields_addSub8 (m : Bit) (a b : BitVec 8) :
    decodeFields .rippleCarryAdder8 (BitVec.ofBool m ++ a ++ b).toNat = if m then .sub8 a b else .add8 a b := by
  simp only [decodeFields, wordBit_pattern (n := 8), highField_pattern, lowField_pattern]

theorem decodeFields_addSub16 (m : Bit) (a b : BitVec 16) :
    decodeFields .rippleCarryAdder16 (BitVec.ofBool m ++ a ++ b).toNat = if m then .sub16 a b else .add16 a b := by
  simp only [decodeFields, wordBit_pattern (n := 16), highField_pattern, lowField_pattern]

/-- The decoder reads back every operand that the encoder wrote. -/
theorem decodeFields_encode (i : Instr) : decodeFields (encode i).component (encode i).bits = i := by
  cases i with
  | nmos a b | pmos a b | gateNand a b | gateAnd a b | gateOr a b | gateNor a b | gateXor a b | halfAdd a b =>
    obtain ⟨ha, hb⟩ := wordBit_pair a b
    simp only [encode, decodeFields, ha, hb]
  | gateNot a => cases a <;> rfl
  | fullAdd a b cin => cases a <;> cases b <;> cases cin <;> rfl
  | chain8 m a b => simp only [encode, decodeFields, wordBit_pattern (n := 8), highField_pattern, lowField_pattern]
  | chain16 m a b => simp only [encode, decodeFields, wordBit_pattern (n := 16), highField_pattern, lowField_pattern]
  | add8 a b => exact decodeFields_addSub8 false a b
  | sub8 a b => exact decodeFields_addSub8 true a b
  | add16 a b => exact decodeFields_addSub16 false a b
  | sub16 a b => exact decodeFields_addSub16 true a b
  | ovf8 c | ovf16 c => simp only [encode, decodeFields, wordField_self]

/-- The encoder writes back every bit of the word that the decoder read. -/
theorem encode_decodeFields {c : Component} {w : Nat} (h : w < 2 ^ c.width) :
    encode (decodeFields c w) = ⟨c, w⟩ := by
  cases c with
  | nmosSwitch | pmosSwitch | gateNand | gateAnd | gateOr | gateNor | gateXor | halfAdder =>
    exact congrArg (InputWord.mk _) (pair_of_word h)
  | gateNot => exact congrArg (InputWord.mk _) (bit_of_word h)
  | fullAdder => exact congrArg (InputWord.mk _) (triple_of_word h)
  | carryChain8 => exact congrArg (InputWord.mk _) (pattern_of_word (n := 8) h)
  | carryChain16 => exact congrArg (InputWord.mk _) (pattern_of_word (n := 16) h)
  | rippleCarryAdder8 =>
    exact (encode_addSub8 _ _ _).trans (congrArg (InputWord.mk _) (pattern_of_word (n := 8) h))
  | rippleCarryAdder16 =>
    exact (encode_addSub16 _ _ _).trans (congrArg (InputWord.mk _) (pattern_of_word (n := 16) h))
  | overflowDetector8 | overflowDetector16 => exact congrArg (InputWord.mk _) (wordField_all h)

/-! ### Where ports stand in input and output words -/

section Positions

variable {n : Nat}

theorem elem_lowField (w : Nat) {i : Nat} (hi : i < n) : elem (wordField w 0 n) i = wordBit w (n - 1 - i) := by
  rw [elem_wordField w 0 hi, Nat.zero_add]

/-- R57 for the two vector ports of a chain or an adder. -/
theorem vectorPorts_positions (w : Nat) :
    (∀ i, i < n → elem (wordField w n n) i = wordBit w (n + n - 1 - i) ∧
      elem (wordField w 0 n) i = wordBit w (n - 1 - i)) ∧
    uval (wordField w n n) = w / 2 ^ n % 2 ^ n ∧ uval (wordField w 0 n) = w % 2 ^ n :=
  ⟨fun _ hi => ⟨elem_wordField w n hi, elem_lowField w hi⟩, uval_wordField w n, uval_lowField w⟩

/-- R57 for the one port of a detector, which is the whole word. -/
theorem wholePort_positions {w : Nat} (h : w < 2 ^ n) :
    (∀ i, i < n → elem (wordField w 0 n) i = wordBit w (n - 1 - i)) ∧ uval (wordField w 0 n) = w :=
  ⟨fun _ => elem_lowField w, (uval_eq_toNat _).trans (wordField_all h)⟩

/-- The elements of two vectors of one width, in the word of the one above the other. -/
theorem append_positions (c s : BitVec n) {i : Nat} (hi : i < n) :
    elem c i = wordBit (c ++ s).toNat (n + n - 1 - i) ∧ elem s i = wordBit (c ++ s).toNat (n - 1 - i) := by
  rw [← elem_wordField _ n hi, ← elem_lowField _ hi, highField_append, lowField_append]
  exact ⟨rfl, rfl⟩

theorem pattern_positions (v : Bit) (c s : BitVec n) {i : Nat} (hi : i < n) :
    elem c i = wordBit (BitVec.ofBool v ++ c ++ s).toNat (n + n - 1 - i) ∧
    elem s i = wordBit (BitVec.ofBool v ++ c ++ s).toNat (n - 1 - i) := by
  rw [← elem_wordField _ n hi, ← elem_lowField _ hi, highField_pattern, lowField_pattern]
  exact ⟨rfl, rfl⟩

theorem pair_value (x y : Bit) : (BitVec.ofBool x ++ BitVec.ofBool y).toNat = 2 * x.toNat + y.toNat := by
  rw [append_value, BitVec.toNat_ofBool, BitVec.toNat_ofBool, Nat.pow_one, Nat.mul_comm]

theorem append_uval (c s : BitVec n) : (c ++ s).toNat = uval c * 2 ^ n + uval s := by
  rw [append_value, uval_eq_toNat, uval_eq_toNat]

/-- RES is COUT written above S. -/
theorem fullResult_eq (s c : BitVec n) : fullResult s c = (BitVec.ofBool (carryOut c) ++ s).toNat := by
  rw [fullResult, append_value, BitVec.toNat_ofBool, uval_eq_toNat, Nat.mul_comm, Nat.add_comm]

/-- R58 for the output word of an adder: its value, where C, S, V and COUT stand, and RES. -/
theorem pattern_layout (hn : 0 < n) (v : Bit) (c s : BitVec n) :
    (BitVec.ofBool v ++ c ++ s).toNat = v.toNat * 2 ^ (n + n) + uval c * 2 ^ n + uval s ∧
    (∀ i, i < n → elem c i = wordBit (BitVec.ofBool v ++ c ++ s).toNat (n + n - 1 - i) ∧
      elem s i = wordBit (BitVec.ofBool v ++ c ++ s).toNat (n - 1 - i)) ∧
    v = wordBit (BitVec.ofBool v ++ c ++ s).toNat (n + n) ∧
    carryOut c = wordBit (BitVec.ofBool v ++ c ++ s).toNat (n + n - 1) ∧
    fullResult s c = (BitVec.ofBool (carryOut c) ++ s).toNat :=
  ⟨pattern_value v c s, fun _ => pattern_positions v c s, (wordBit_pattern v c s).symm,
    (pattern_positions v c s hn).1, fullResult_eq s c⟩

end Positions

/-! ### Driven words -/

section Drive

variable {c : Component} {w : Nat}

theorem isBit_rawBit (b : Bit) : isBit (rawBit b) = true := by cases b <;> rfl

theorem rawBit_eq_one (b : Bit) : (rawBit b == 1) = b := by cases b <;> rfl

/-- Presenting a word loses none of its bits and gives every port its width. -/
theorem presentWord_ports (c : Component) (w : Nat) :
    (presentWord c w).ports.flatten = (wordBits c.width w).map rawBit ∧
    (presentWord c w).ports.map List.length = c.ports.map Prod.snd :=
  splitPorts_spec _ _ (by rw [List.length_map, wordBits_length]; rfl)

theorem presentWord_wf (c : Component) (w : Nat) : (presentWord c w).wf = true := by
  obtain ⟨hflat, hlen⟩ := presentWord_ports c w
  have hfull : (presentWord c w).everyPortFull = true := beq_iff_eq.2 hlen
  have hbits : (presentWord c w).everyElementBit = true := by
    rw [Application.everyElementBit, ← List.all_flatten, hflat, List.all_map]
    exact List.all_eq_true.2 fun b _ => isBit_rawBit b
  rw [Application.wf, hfull, hbits, Application.everyPortPresent, everyPortFull_present hfull, beq_self_eq_true]
  rfl

theorem packPorts_presentWord (h : w < 2 ^ c.width) : packPorts (presentWord c w).ports = w := by
  have hraw : (fun e => e == 1) ∘ rawBit = id := funext rawBit_eq_one
  rw [packPorts, (presentWord_ports c w).1, List.map_map, hraw, List.map_id, packBits_wordBits _ _ h]

/-- R127, apply: the word driven on a component is the word the step reads. -/
theorem fetch_driveWord (s : State) (h : w < 2 ^ c.width) : fetch (s.driveWord c w) = .next ⟨c, w⟩ := by
  obtain ⟨iw, hv⟩ := (validate_accepts_iff _).2 (presentWord_wf c w)
  rw [State.driveWord, fetch_drive, hv, validate_next hv, packPorts_presentWord h]
  rfl

/-- A driven word is run as the instruction it decodes to. -/
theorem step_driveWord (s : State) {i : Instr} (hd : decode c w = .ok i) :
    step (s.driveWord c w) = exec i (s.driveWord c w) :=
  Scope.step_of_decoded (fetch_driveWord s (decode_eq_ok_iff.1 hd).1) hd

/-- A bare word that decodes is driven on the component the model reads it on (log 5). -/
theorem withFetchWord_of_decoded (s : State) {nbits : Nat} {i : Instr} (h : decodeTableWord nbits w = some i) :
    ∃ c, decode c w = .ok i ∧ s.withFetchWord nbits w = s.driveWord c w := by
  unfold decodeTableWord at h
  split at h
  next c hc =>
    split at h
    next j hd =>
      cases h
      refine ⟨c, hd, ?_⟩
      simp only [State.withFetchWord, driveTableWord, hc, if_pos (decode_eq_ok_iff.1 hd).1]
    next => cases h
  next => cases h

end Drive

/-! ### Applications that complete -/

section Complete

variable (s : State) (a : Application)

/-- An application completes exactly when it is well formed. -/
theorem step_drive_completes_iff : (∃ t, step (s.drive a) = .next t) ↔ a.wf = true := by
  rw [← validate_accepts_iff, ← fetch_drive s]
  constructor
  · rintro ⟨t, h⟩
    obtain ⟨iw, _, hf, _⟩ := step_next h
    exact ⟨iw, hf⟩
  · rintro ⟨iw, hf⟩
    have hd := decode_of_fits (validate_fits hf)
    exact ⟨_, (Scope.step_of_decoded hf hd).trans (exec_eq _ _)⟩

/-- A completed application can be sampled: so a normal end is a completed application. -/
theorem endsNormally_iff : EndsNormally s ↔ ∃ t, step s = .next t := by
  constructor
  · rintro ⟨t, _, h, _⟩
    exact ⟨t, h⟩
  · rintro ⟨t, h⟩
    obtain ⟨o, rfl⟩ := Memory.stepChangesOutputsOnly s t h
    exact ⟨_, o, h, (sample_next _ _).2 rfl⟩

/-- An application reports outputs exactly when it ends normally with them. -/
theorem report_eq_next_iff (o : Output) :
    report s a = .next o ↔ ∃ t, step (s.drive a) = .next t ∧ t.sample = .next o := by
  simp only [sample_next]
  constructor
  · intro h
    unfold report at h
    split at h
    next t o' heq =>
      cases h
      exact ⟨t, (applyAndSample_next s a o t).1 heq⟩
    all_goals cases h
  · rintro ⟨t, h, ho⟩
    exact Memory.report_of_next h ho

end Complete

/-! ### The obligations -/

/-- Settles O1: the encoding is a word of its format, and its fields are the instruction's operands. -/
theorem decodeOfEncode : Obligations.DecodeOfEncode := fun i =>
  decode_eq_ok_iff.2 ⟨encode_fits i, decodeFields_encode i⟩

/-- Settles O2: a word of the format is put together again from the fields that the decoder reads. -/
theorem encodeOfDecode : Obligations.EncodeOfDecode := by
  refine ⟨fun c w i h => ?encodes, fun c w => ⟨fun ⟨_, h⟩ => ?fits, fun h => ⟨_, decode_of_fits h⟩⟩⟩
  case encodes =>
    obtain ⟨hw, rfl⟩ := decode_eq_ok_iff.1 h
    exact encode_decodeFields hw
  case fits => exact (decode_eq_ok_iff.1 h).1

/-- Settles O3: every vector port is a field of the word, at the high and low positions of a chain or an adder and
over the whole word of a detector. -/
theorem wordPositionsOfPorts : Obligations.WordPositionsOfPorts :=
  ⟨fun w lo _ => ⟨fun _ => elem_wordField w lo, uval_wordField w lo⟩,
    fun w h => ⟨wordField w 8 8, wordField w 0 8, decode_of_fits h, decode_of_fits h, vectorPorts_positions w⟩,
    fun w h => ⟨wordField w 16 16, wordField w 0 16, decode_of_fits h, decode_of_fits h, vectorPorts_positions w⟩,
    fun w h => ⟨wordField w 0 8, decode_of_fits h, wholePort_positions h⟩,
    fun w h => ⟨wordField w 0 16, decode_of_fits h, wholePort_positions h⟩⟩

/-- Settles O4: each format's word is its fields appended, highest position first. -/
theorem outputWordLayout : Obligations.OutputWordLayout :=
  ⟨fun y => ⟨rfl, BitVec.toNat_ofBool y, rfl, BitVec.toNat_ofBool y⟩,
    fun c s => ⟨rfl, pair_value c s, rfl, pair_value c s⟩,
    fun c s => ⟨rfl, append_uval c s, fun _ => append_positions c s⟩,
    fun c s => ⟨rfl, append_uval c s, fun _ => append_positions c s⟩,
    fun v c s => ⟨rfl, pattern_layout (by decide) v c s⟩,
    fun v c s => ⟨rfl, pattern_layout (by decide) v c s⟩⟩

/-- Settles O5: the driven word is the one fetched, it decodes, and `exec` always completes. -/
theorem everyWordIsLegal : Obligations.EveryWordIsLegal := by
  intro s c w h
  have hd := decode_of_fits h
  have hs := step_driveWord s hd
  exact ⟨_, _, hd, hs.symm, hs.trans (exec_eq _ _)⟩

/-- Settles O6: each word is the encoding of its instruction, by evaluation of `encode`, so O1 decodes it. -/
theorem sampleWordsDecode : Obligations.SampleWordsDecode :=
  ⟨decodeOfEncode (.nmos true false), decodeOfEncode (.pmos false true), decodeOfEncode (.gateXor true false),
    decodeOfEncode (.fullAdd true false false), decodeOfEncode (.chain8 true 0xFF 0x00),
    decodeOfEncode (.sub8 0x05 0x03), decodeOfEncode (.sub16 0x8003 0x8001), decodeOfEncode (.ovf8 0x83)⟩

/-- Settles O9: a bare word that decodes is a word driven on its component. -/
theorem tableWordRunsNext : Obligations.TableWordRunsNext := by
  intro s nbits w i h
  obtain ⟨c, hd, hs⟩ := withFetchWord_of_decoded s h
  rw [hs, step_driveWord s hd]

/-- Settles O49: a normal end is a completed application, which the boundary accepts exactly if it is well formed. -/
theorem endsNormallyExactlyOnBits : Obligations.EndsNormallyExactlyOnBits := by
  intro s a
  have hends : EndsNormally (s.drive a) ↔ a.wf = true :=
    (endsNormally_iff _).trans (step_drive_completes_iff s a)
  refine ⟨hends, ?reports⟩
  case reports =>
    simp only [report_eq_next_iff]
    exact exists_comm.trans hends

end Sys2Proof.Encoding
end

section
/-! PROOFS. The transistor switches (40_transistor_switches.md): NMOS and PMOS on bits, and the refusal of a non-bit
below the validating boundary (R70, R111). -/

namespace Sys2Proof.Switches

open Sys2Proof Sys2Proof.Machine

/-! ### The refusal below the boundary -/

/-- What the boundary refuses, the step refuses: no instruction is decoded. -/
theorem step_of_fetch_refused {s : State} {r : Refusal} (h : fetch s = .refused r) : step s = .refused r := by
  rw [step, h]

/-- A one-bit component has no wrapper (R109): with its ports full, the test left is that of the elements. -/
theorem validate_refuses_nonBit {a : Application} (hwidth : a.component.vectorWidth = none)
    (hfull : a.everyPortFull = true) (hbits : a.everyElementBit = false) :
    validate a = .refused .nonBitBelowBoundary := by
  have hpresent : ¬ a.ports.length ≠ a.component.ports.length := not_not.2 (everyPortFull_present hfull)
  have hfits : lengthsFit a.component a.ports = true := hfull
  have hnonBit : ¬ (a.ports.all fun p => p.all isBit) = true := Bool.eq_false_iff.1 hbits
  rw [validate, if_neg hpresent, hwidth]
  exact (if_pos hfits).trans (if_neg hnonBit)

/-- Settles O48: the step ends where the boundary refuses the application. -/
theorem nonBitBelowBoundaryIsRefused : Obligations.NonBitBelowBoundaryIsRefused :=
  fun s a hwidth hfull hbits =>
    step_of_fetch_refused ((fetch_drive s a).trans (validate_refuses_nonBit hwidth hfull hbits))

/-! ### The switches -/

/-- The refusal on a component with two one-bit ports, element by element. -/
theorem step_refuses_nonBit_pair (s : State) {c : Component} (hwidth : c.vectorWidth = none)
    (hports : c.ports.map Prod.snd = [1, 1]) {x y : Int} (h : (isBit x && isBit y) = false) :
    step (s.drive ⟨c, [[x], [y]]⟩) = .refused .nonBitBelowBoundary := by
  have hbits : (Application.mk c [[x], [y]]).everyElementBit = false := by
    simpa only [Application.everyElementBit, List.all_cons, List.all_nil, Bool.and_true] using h
  exact nonBitBelowBoundaryIsRefused s _ hwidth (beq_iff_eq.2 hports.symm) hbits

/-- Settles O16: the word has G above S, the output is the switch by definition, and O48 gives the refusal. -/
theorem nmosSwitchRule : Obligations.NmosSwitchRule := by
  refine ⟨fun g src => ⟨?word, ?output, nmosSwitch_eq g src⟩, fun s _ _ => step_refuses_nonBit_pair s rfl rfl⟩
  case word => exact congrArg (InputWord.mk _) (Encoding.pair_value g src)
  case output => exact (gives_iff .direct _ _).2 rfl

/-- Settles O17: as O16, with the switch on when G is 0. -/
theorem pmosSwitchRule : Obligations.PmosSwitchRule := by
  refine ⟨fun g src => ⟨?word, ?output, pmosSwitch_eq g src⟩, fun s _ _ => step_refuses_nonBit_pair s rfl rfl⟩
  case word => exact congrArg (InputWord.mk _) (Encoding.pair_value g src)
  case output => exact (gives_iff .direct _ _).2 rfl

end Sys2Proof.Switches
end

section
/-! PROOFS. The six gates (41_gates.md R72 to R78): each gate's input word, its result, its two definitions, and the
agreement of the two gate strategies. -/

namespace Sys2Proof.Gates

open Sys2Proof Sys2Proof.Machine

/-! ### The switches inside the transistor-composed gates -/

/-- An nmos switch whose source is tied to 0 outputs 0, on or off: the pull-down path of R72 and R73. -/
theorem nmosSwitch_of_low_source (g : Bit) : nmosSwitch g false = false := by
  rw [nmosSwitch_eq, Bool.and_false]

/-- A pmos switch whose source is tied to 1 inverts its gate: the pull-up path of R72 and R73. -/
theorem pmosSwitch_of_high_source (g : Bit) : pmosSwitch g true = !g := by
  rw [pmosSwitch_eq, Bool.and_true]

/-! ### Gates under either strategy -/

/-- The negation of R14, said in integers. -/
theorem toNat_not (x : Bit) : (!x).toNat = 1 - x.toNat := by
  cases x <;> rfl

section Strategy

variable (g g' : GateStrategy) (a b : Bit)

/-- A nand with its inputs tied together is an inverter, which R75 builds `or` from. -/
theorem nand_self : (gatesOf g).nand a a = !a := by
  rw [gatesOf_nand, Bool.and_self]

theorem xor_zero : (gatesOf g).xor a false = a := by
  rw [gatesOf_xor, Bool.xor_false]

theorem xor_one : (gatesOf g).xor a true = !a := by
  rw [gatesOf_xor, Bool.xor_true]

/-- Under every strategy a gate computes one boolean function, so any two strategies agree gate by gate. -/
theorem gates_strategy :
    (gatesOf g).not a = (gatesOf g').not a ∧ (gatesOf g).nand a b = (gatesOf g').nand a b ∧
    (gatesOf g).and a b = (gatesOf g').and a b ∧ (gatesOf g).or a b = (gatesOf g').or a b ∧
    (gatesOf g).nor a b = (gatesOf g').nor a b ∧ (gatesOf g).xor a b = (gatesOf g').xor a b := by
  simp only [gatesOf_not, gatesOf_nand, gatesOf_and, gatesOf_or, gatesOf_nor, gatesOf_xor, and_self]

end Strategy

/-! ### Encoding and completion -/

/-- The input word of a two-input gate has A above B (R56). -/
theorem pairWord_eq (c : Component) (a b : Bit) :
    InputWord.mk c (BitVec.ofBool a ++ BitVec.ofBool b).toNat = ⟨c, 2 * a.toNat + b.toNat⟩ :=
  congrArg (InputWord.mk c) (Encoding.pair_value a b)

/-- In every state an instruction gives its outputs under the direct strategy, whatever strategy the state holds. -/
theorem gives_directOutputs (i : Instr) : Gives i (outputsOf .direct i) :=
  (gives_iff .direct i _).2 rfl

/-! ### The obligations -/

/-- Settles O24: the gates agree by their closed forms, and the adders and the instructions inherit it. -/
theorem strategiesAgree : Obligations.StrategiesAgree := by
  refine ⟨gates_strategy .transistor .direct, fun a b => ⟨rfl, rfl, rfl, ?nand, ?nor⟩,
    fun _ => adderSubtractor_strategy .transistor .direct, fun i => ⟨_, gives_directOutputs i⟩⟩
  case nand => exact toNat_not (a && b)
  case nor => exact toNat_not (a || b)

/-- Settles O18: of the node's two switches the nmos never drives it, and the pmos is the inverter. -/
theorem notGateRule : Obligations.NotGateRule := fun a =>
  ⟨congrArg (InputWord.mk _) (BitVec.toNat_ofBool a), gives_directOutputs (.gateNot a), toNat_not a, rfl,
    nmosSwitch_of_low_source a, pmosSwitch_of_high_source a⟩

/-- Settles O19: the two nmos switches in series pass on the 0 at the source of the lower one. -/
theorem nandGateRule : Obligations.NandGateRule := by
  intro a b
  have hlower : nmosSwitch b false = false := nmosSwitch_of_low_source b
  have hupper : nmosSwitch a (nmosSwitch b false) = false := by rw [hlower, nmosSwitch_of_low_source]
  exact ⟨pairWord_eq _ a b, gives_directOutputs (.gateNand a b), toNat_not (a && b), rfl, hlower, hupper⟩

/-- Settles O20: both forms are the definitions of R74. -/
theorem andGateRule : Obligations.AndGateRule := fun a b =>
  ⟨pairWord_eq _ a b, gives_directOutputs (.gateAnd a b), rfl, rfl⟩

/-- Settles O21: as O20, and the inner nand gates of R75 are inverters. -/
theorem orGateRule : Obligations.OrGateRule := fun a b =>
  ⟨pairWord_eq _ a b, gives_directOutputs (.gateOr a b), rfl, rfl, nand_self .transistor a⟩

/-- Settles O22: as O20, the direct form being the negation of R14 on `or`. -/
theorem norGateRule : Obligations.NorGateRule := fun a b =>
  ⟨pairWord_eq _ a b, gives_directOutputs (.gateNor a b), toNat_not (a || b), rfl⟩

/-- Settles O23: as O20, with the conditioning identities under each strategy. -/
theorem xorGateRule : Obligations.XorGateRule := fun a b =>
  ⟨pairWord_eq _ a b, gives_directOutputs (.gateXor a b), rfl, rfl, xor_zero .direct a, xor_one .direct a,
    xor_zero .transistor a, xor_one .transistor a⟩

end Sys2Proof.Gates
end

section
/-! PROOFS. The one-bit adders (42_adders_1bit.md R79 to R82): their words, their truth tables and arithmetic
laws, and the full adder as two chained half adders. -/

namespace Sys2Proof.OneBitAdders

open Sys2Proof Sys2Proof.Machine

/-! ### The half adder -/

section HalfAdder

variable (a b : Bit)

/-- R79, corner case: a carry needs two 1s, and then the sum is 0. -/
theorem and_excludes_xor : ((a && b) && (a ^^ b)) = false := by
  cases a <;> cases b <;> rfl

/-- R80. -/
theorem halfAdder_value (g : GateStrategy) :
    a.toNat + b.toNat = 2 * (halfAdder (gatesOf g) a b).carry.toNat + (halfAdder (gatesOf g) a b).sum.toNat := by
  rw [halfAdder_carry, halfAdder_sum]
  cases a <;> cases b <;> rfl

theorem halfAdd_gives : Gives (.halfAdd a b) (.ha (a && b) (a ^^ b)) :=
  Gates.gives_directOutputs (.halfAdd a b)

end HalfAdder

/-! ### The `or` that joins the two carries of a full adder -/

section Exclusive

variable {x y : Bit}

theorem or_eq_xor_of_exclusive (h : (x && y) = false) : (x || y) = (x ^^ y) := by
  cases x with
  | false => exact (Bool.false_xor y).symm
  | true =>
    obtain rfl : y = false := h
    rfl

theorem toNat_or_of_exclusive (h : (x && y) = false) : (x || y).toNat = x.toNat + y.toNat := by
  cases x with
  | false => exact (Nat.zero_add _).symm
  | true =>
    obtain rfl : y = false := h
    rfl

end Exclusive

/-! ### The full adder -/

section FullAdder

variable (g : GateStrategy) (a b cin : Bit)

theorem fullAdder_sum : (fullAdder (gatesOf g) a b cin).sum = (a ^^ b ^^ cin) := by
  simp only [fullAdder, halfAdder_sum]

/-- R82: the `or` of the two carries is the majority of the three inputs. -/
theorem fullAdder_carry :
    (fullAdder (gatesOf g) a b cin).carry = ((a && b) || (a && cin) || (b && cin)) := by
  simp only [fullAdder, gatesOf_or, halfAdder_sum, halfAdder_carry]
  cases a <;> cases b <;> cases cin <;> rfl

/-- R82: the second half adder carries only if the first one's sum is 1, and then the first one has no carry. -/
theorem halfAdder_carries_exclusive :
    ((halfAdder (gatesOf g) a b).carry &&
      (halfAdder (gatesOf g) (halfAdder (gatesOf g) a b).sum cin).carry) = false := by
  simp only [halfAdder_carry, halfAdder_sum]
  rw [← Bool.and_assoc, and_excludes_xor, Bool.false_and]

/-- R81, corner case: with CIN = 0 the second half adder passes the first one's sum on and has no carry. -/
theorem fullAdder_carryIn_zero : fullAdder (gatesOf g) a b false = halfAdder (gatesOf g) a b := by
  have hsum : (halfAdder (gatesOf g) (halfAdder (gatesOf g) a b).sum false).sum = (halfAdder (gatesOf g) a b).sum :=
    Gates.xor_zero g _
  have hcarry : (halfAdder (gatesOf g) (halfAdder (gatesOf g) a b).sum false).carry = false := by
    rw [halfAdder_carry, Bool.and_false]
  simp only [fullAdder, hsum, hcarry, gatesOf_or, Bool.or_false]

theorem fullAdd_gives :
    Gives (.fullAdd a b cin) (.fa ((a && b) || (a && cin) || (b && cin)) (a ^^ b ^^ cin)) := by
  rw [← fullAdder_carry .direct, ← fullAdder_sum .direct]
  exact Gates.gives_directOutputs (.fullAdd a b cin)

/-- R82 on the parity and the majority themselves. -/
theorem majority_parity_value :
    a.toNat + b.toNat + cin.toNat
      = 2 * ((a && b) || (a && cin) || (b && cin)).toNat + (a ^^ b ^^ cin).toNat := by
  rw [← fullAdder_carry .direct, ← fullAdder_sum .direct]
  exact fullAdder_value .direct a b cin

/-- The input word of a full adder has A above B above CIN (R56). -/
theorem triple_value :
    (BitVec.ofBool a ++ BitVec.ofBool b ++ BitVec.ofBool cin).toNat = 4 * a.toNat + 2 * b.toNat + cin.toNat := by
  rw [append_value, Encoding.pair_value, BitVec.toNat_ofBool]
  omega

end FullAdder

/-! ### The obligations -/

/-- Settles O25: the outputs are the closed forms of the two gates, and the output word is the arithmetic law. -/
theorem halfAdderRule : Obligations.HalfAdderRule := by
  refine ⟨fun a b => ⟨Gates.pairWord_eq _ a b, a && b, a ^^ b, halfAdd_gives a b, rfl, rfl, and_excludes_xor a b,
      halfAdder_value a b .direct, ?word, fun _ _ => rfl⟩,
    halfAdd_gives false false, halfAdd_gives false true, halfAdd_gives true false, halfAdd_gives true true⟩
  case word => exact (Encoding.pair_value _ _).trans (halfAdder_value a b .direct).symm

/-- Settles O26: the laws of R82 on the parity and the majority; and that the two carries exclude each other, from
which both other readings of the `or` follow. -/
theorem fullAdderRule : Obligations.FullAdderRule := by
  refine ⟨fun a b cin => ⟨congrArg (InputWord.mk _) (triple_value a b cin), _, _, fullAdd_gives a b cin, rfl, rfl,
    majority_parity_value a b cin, ?word⟩, fun g a b cin => ?halves⟩
  case word => exact (Encoding.pair_value _ _).trans (majority_parity_value a b cin).symm
  case halves =>
    have hexcl := halfAdder_carries_exclusive g a b cin
    exact ⟨rfl, hexcl, (gatesOf_or g _ _).trans (or_eq_xor_of_exclusive hexcl),
      (congrArg Bool.toNat (gatesOf_or g _ _)).trans (toNat_or_of_exclusive hexcl), fullAdder_carryIn_zero g a b⟩

end Sys2Proof.OneBitAdders
end

section
/-! PROOFS. The ripple (43_ripple_carry.md R83 to R97): the carry chain position by position and in closed form, and the
adder-subtractors as conditioned chains with their unsigned and signed laws. -/

namespace Sys2Proof.RippleCarry

open Sys2Proof Sys2Proof.Machine

/-! ### One full adder per position -/

section Positions

variable {n : Nat}

/-- The carry that enters a position of the listed ripple is the one R83 names on the carry vector. -/
theorem carryBefore_eq_carryInto (rs : List (SumResult Bit)) (hl : rs.length = n) (cin : Bit) {i : Nat} (hi : i < n) :
    carryBefore rs cin (n - 1 - i) = carryInto (chainPortsOf n rs).carries cin i := by
  by_cases hlsb : i = n - 1
  · rw [hlsb, Nat.sub_self, carryInto, if_pos rfl, carryBefore]
  · have hnext : n - 1 - i = n - 1 - (i + 1) + 1 := by omega
    rw [carryInto, if_neg hlsb, chainPortsOf_carry_elem rs hl (by omega), hnext, carryBefore,
      List.getElem?_eq_getElem (by omega)]
    rfl

variable (g : GateStrategy) (a x : BitVec n) (cin : Bit)

theorem chain_length : (ripple (gatesOf g) (lsbBits a) (lsbBits x) cin).length = n := by
  rw [ripple_length _ _ _ _ (by simp), lsbBits_length]

/-- R84: what the ports of a chain hold at a position is the full adder of that position. -/
theorem chain_position {i : Nat} (hi : i < n) :
    elem (carryChain (gatesOf g) a x cin).sum i
      = (fullAdder (gatesOf g) (elem a i) (elem x i)
          (carryInto (carryChain (gatesOf g) a x cin).carries cin i)).sum ∧
    elem (carryChain (gatesOf g) a x cin).carries i
      = (fullAdder (gatesOf g) (elem a i) (elem x i)
          (carryInto (carryChain (gatesOf g) a x cin).carries cin i)).carry := by
  have hl := chain_length g a x cin
  have hfa := ripple_getElem (gatesOf g) (lsbBits a) (lsbBits x) cin (n - 1 - i) (by rw [lsbBits_length]; omega)
    (by rw [lsbBits_length]; omega) (by omega)
  rw [lsbBits_getElem, lsbBits_getElem, ← elem_eq a hi, ← elem_eq x hi, carryBefore_eq_carryInto _ hl cin hi] at hfa
  rw [carryChain, chainPortsOf_sum_elem _ hl hi, chainPortsOf_carry_elem _ hl hi, hfa]
  exact ⟨rfl, rfl⟩

/-- A chain ripples: R84 in integers, by the arithmetic of the full adder. -/
theorem chain_ripplesTo :
    RipplesTo a x cin (carryChain (gatesOf g) a x cin).sum (carryChain (gatesOf g) a x cin).carries := by
  intro i hi
  obtain ⟨hsum, hcarry⟩ := chain_position g a x cin hi
  rw [hsum, hcarry]
  exact fullAdder_value g _ _ _

end Positions

/-! ### Subvectors towards the LSB -/

theorem two_pow_of_eq_succ {j k : Nat} (h : j = k + 1) : 2 ^ j = 2 ^ k * 2 := by
  rw [h, Nat.pow_succ]

section Tails

variable {n : Nat} (v : BitVec n)

theorem uval_tailFrom (i : Nat) : uval (tailFrom v i) = uval v % 2 ^ (n - i) := by
  rw [uval_eq_toNat, uval_eq_toNat, tailFrom, BitVec.toNat_setWidth]

theorem uval_tailFrom_zero : uval (tailFrom v 0) = uval v := by
  rw [uval_tailFrom, Nat.sub_zero, Nat.mod_eq_of_lt (uval_lt v)]

/-- The element at a subvector's head has the subvector's highest weight. -/
theorem uval_tailFrom_succ {i : Nat} (hi : i < n) :
    uval (tailFrom v i) = uval (tailFrom v (i + 1)) + 2 ^ (n - 1 - i) * (elem v i).toNat := by
  have hwidth : n - i = n - 1 - i + 1 := by omega
  have hrest : n - (i + 1) = n - 1 - i := by omega
  rw [uval_tailFrom, uval_tailFrom, hwidth, hrest, Nat.mod_pow_succ, Scope.elem_value v hi]

theorem uval_tailFrom_succ_lt (i : Nat) : uval (tailFrom v (i + 1)) < 2 ^ (n - 1 - i) := by
  have hrest : n - 1 - i = n - (i + 1) := by omega
  rw [hrest]
  exact uval_lt _

/-- Vectors that agree from position i towards the LSB have the same subvector there. -/
theorem tailFrom_congr {v v' : BitVec n} {i : Nat} (h : ∀ j, i ≤ j → j < n → elem v j = elem v' j) :
    tailFrom v i = tailFrom v' i := by
  apply BitVec.eq_of_getLsbD_eq
  intro k hk
  rw [tailFrom, tailFrom, BitVec.getLsbD_setWidth, BitVec.getLsbD_setWidth, getLsbD_eq_elem v (by omega),
    getLsbD_eq_elem v' (by omega), h _ (by omega) (by omega)]

theorem eq_of_elem {v v' : BitVec n} (h : ∀ i, i < n → elem v i = elem v' i) : v = v' := by
  apply BitVec.eq_of_getLsbD_eq
  intro k hk
  rw [getLsbD_eq_elem v hk, getLsbD_eq_elem v' hk, h _ (by omega)]

end Tails

/-! ### The closed form of a ripple -/

/-- T of R97: the value of both operands from position i to the LSB, with the carry-in. -/
def tailTotal {n : Nat} (a x : BitVec n) (cin : Bit) (i : Nat) : Nat :=
  uval (tailFrom a i) + uval (tailFrom x i) + cin.toNat

section ClosedForm

variable {n : Nat} {a x s c : BitVec n} {cin : Bit}

/-- R97 before the divisions: T is the sum below position i with `2·C[i] + S[i]` above it, by recursion towards the
LSB. -/
theorem tailTotal_eq (h : RipplesTo a x cin s c) (i : Nat) (hi : i < n) :
    tailTotal a x cin i
      = uval (tailFrom s (i + 1)) + 2 ^ (n - 1 - i) * (2 * (elem c i).toNat + (elem s i).toNat) := by
  have hbelow : tailTotal a x cin (i + 1)
      = uval (tailFrom s (i + 1)) + 2 ^ (n - 1 - i) * (carryInto c cin i).toNat := by
    by_cases hlsb : i = n - 1
    case pos =>
      have ha := uval_tailFrom_succ_lt a i
      have hx := uval_tailFrom_succ_lt x i
      have hs := uval_tailFrom_succ_lt s i
      rw [hlsb, Nat.sub_self, Nat.pow_zero] at ha hx hs
      rw [tailTotal, hlsb, carryInto, if_pos rfl, Nat.sub_self, Nat.pow_zero]
      omega
    case neg =>
      have hpow : 2 ^ (n - 1 - i) = 2 ^ (n - 1 - (i + 1)) * 2 := two_pow_of_eq_succ (by omega)
      rw [tailTotal_eq h (i + 1) (by omega), carryInto, if_neg hlsb, uval_tailFrom_succ s (i := i + 1) (by omega), hpow]
      ring
  have hposition := h i hi
  calc tailTotal a x cin i
      = tailTotal a x cin (i + 1) + 2 ^ (n - 1 - i) * ((elem a i).toNat + (elem x i).toNat) := by
        rw [tailTotal, tailTotal, uval_tailFrom_succ a hi, uval_tailFrom_succ x hi]; ring
    _ = uval (tailFrom s (i + 1)) + 2 ^ (n - 1 - i) * (2 * (elem c i).toNat + (elem s i).toNat) := by
        rw [hbelow, ← hposition]; ring
termination_by n - i

/-- `2·C[i] + S[i]` is T with everything below position i cut off. -/
theorem position_eq_div (h : RipplesTo a x cin s c) {i : Nat} (hi : i < n) :
    2 * (elem c i).toNat + (elem s i).toNat = tailTotal a x cin i / 2 ^ (n - 1 - i) := by
  rw [tailTotal_eq h i hi, Nat.add_mul_div_left _ _ (by positivity), Nat.div_eq_of_lt (uval_tailFrom_succ_lt s i),
    Nat.zero_add]

/-- R97 for S. -/
theorem sum_closedForm (h : RipplesTo a x cin s c) {i : Nat} (hi : i < n) :
    (elem s i).toNat = tailTotal a x cin i / 2 ^ (n - 1 - i) % 2 := by
  have hs := Bool.toNat_le (elem s i)
  rw [← position_eq_div h hi]
  omega

/-- R97 for C. -/
theorem carry_closedForm (h : RipplesTo a x cin s c) {i : Nat} (hi : i < n) :
    (elem c i).toNat = tailTotal a x cin i / 2 ^ (n - i) := by
  have hpow : 2 ^ (n - i) = 2 ^ (n - 1 - i) * 2 := two_pow_of_eq_succ (by omega)
  have hs := Bool.toNat_le (elem s i)
  rw [hpow, ← Nat.div_div_eq_div_mul, ← position_eq_div h hi]
  omega

/-- R97 for COUT. -/
theorem carryOut_eq_div (h : RipplesTo a x cin s c) (hn : 1 ≤ n) :
    (carryOut c).toNat = (uval a + uval x + cin.toNat) / 2 ^ n := by
  rw [← uval_tailFrom_zero a, ← uval_tailFrom_zero x]
  exact carry_closedForm h (i := 0) hn

/-- The sum from position i to the LSB, with the carry out of position i above it, is T. -/
theorem tailTotal_eq_sum_carry (h : RipplesTo a x cin s c) {i : Nat} (hi : i < n) :
    tailTotal a x cin i = uval (tailFrom s i) + 2 ^ (n - i) * (elem c i).toNat := by
  have hpow : 2 ^ (n - i) = 2 ^ (n - 1 - i) * 2 := two_pow_of_eq_succ (by omega)
  rw [tailTotal_eq h i hi, uval_tailFrom_succ s hi, hpow]
  ring

/-- A bit is determined by its integer value. -/
theorem eq_of_toNat_eq {p q : Bit} (h : p.toNat = q.toNat) : p = q := by
  rw [← Bool.ofNat_toNat p, h, Bool.ofNat_toNat]

/-- Ripples whose operands agree from position i towards the LSB agree at position i (R87). -/
theorem ripplesTo_congr {a' x' s' c' : BitVec n} (h : RipplesTo a x cin s c) (h' : RipplesTo a' x' cin s' c')
    {i : Nat} (hi : i < n) (ht : tailTotal a x cin i = tailTotal a' x' cin i) :
    elem c i = elem c' i ∧ elem s i = elem s' i := by
  refine ⟨eq_of_toNat_eq ?carry, eq_of_toNat_eq ?sum⟩
  case carry => rw [carry_closedForm h hi, carry_closedForm h' hi, ht]
  case sum => rw [sum_closedForm h hi, sum_closedForm h' hi, ht]

end ClosedForm

/-- S and C are determined by the operands and the carry-in, so a chain is any ripple of its operands. -/
theorem chain_eq_of_ripplesTo (g : GateStrategy) {n : Nat} {a x s c : BitVec n} {cin : Bit}
    (h : RipplesTo a x cin s c) : carryChain (gatesOf g) a x cin = ⟨s, c⟩ := by
  have hchain := chain_ripplesTo g a x cin
  have hs : (carryChain (gatesOf g) a x cin).sum = s := eq_of_elem fun i hi => (ripplesTo_congr hchain h hi rfl).2
  have hc : (carryChain (gatesOf g) a x cin).carries = c := eq_of_elem fun i hi => (ripplesTo_congr hchain h hi rfl).1
  rw [← hs, ← hc]

/-! ### Chains whose every carry is 1 -/

section AllCarries

variable {n : Nat}

theorem elem_allOnes {i : Nat} (hi : i < n) : elem (BitVec.allOnes n) i = true := by
  rw [elem_eq _ hi, BitVec.getLsbD_allOnes]
  exact decide_eq_true (by omega)

theorem elem_not (b : BitVec n) {i : Nat} (hi : i < n) : elem (~~~b) i = !elem b i := by
  rw [elem_eq _ hi, elem_eq _ hi, BitVec.getLsbD_not, decide_eq_true (by omega : n - 1 - i < n), Bool.true_and]

theorem carryInto_allOnes {i : Nat} (hi : i < n) : carryInto (BitVec.allOnes n) true i = true := by
  unfold carryInto
  split
  next => rfl
  next h => exact elem_allOnes (by omega)

/-- Adding all ones and a carry-in passes A on: every position holds `A[i] + 1 + 1`. -/
theorem ripplesTo_allOnes (a : BitVec n) : RipplesTo a (BitVec.allOnes n) true a (BitVec.allOnes n) := by
  intro i hi
  rw [carryInto_allOnes hi, elem_allOnes hi, Bool.toNat_true]
  omega

end AllCarries

/-! ### The boundary of a vector component -/

section Boundary

variable {n : Nat}

theorem step_of_fetch_fault {s : State} {f : Fault} (h : fetch s = .fault f) : step s = .fault f := by
  rw [step, h]

/-- With every port presented, the wrapper of a vector component accepts or faults: it never refuses (R109). -/
theorem validate_vector {a : Application} (hw : a.component.vectorWidth = some n)
    (hpresent : a.everyPortPresent = true) :
    (∃ iw, validate a = .next iw) ∨ ∃ f, validate a = .fault f := by
  have hports : ¬ a.ports.length ≠ a.component.ports.length := not_not.2 (beq_iff_eq.1 hpresent)
  rw [validate, if_neg hports, hw]
  dsimp only
  by_cases hfit : lengthsFit a.component a.ports = true
  case neg => exact .inr ⟨_, if_neg hfit⟩
  case pos =>
    rw [if_pos hfit]
    cases firstNonBit (a.component.ports.map Prod.fst) a.ports with
    | none => exact .inl ⟨_, rfl⟩
    | some f => exact .inr ⟨f, rfl⟩

/-- What the wrapper does not accept it faults on, and it accepts exactly the well-formed applications. -/
theorem faultsExactlyOnBadInput {c : Component} (hw : c.vectorWidth = some n) : FaultsExactlyOnBadInput c := by
  rintro s a rfl hpresent
  refine ⟨(Encoding.endsNormallyExactlyOnBits s a).1.2, fun hbad => ?fault⟩
  case fault =>
    obtain ⟨iw, hv⟩ | ⟨f, hv⟩ := validate_vector hw hpresent
    · exact absurd ((validate_accepts_iff a).1 ⟨iw, hv⟩) (Bool.eq_false_iff.1 hbad)
    · exact ⟨f, step_of_fetch_fault ((fetch_drive s a).trans hv)⟩

end Boundary

/-! ### The operands of an adder-subtractor -/

section Operands

variable {n : Nat}

theorem elem_flippedBy (b : BitVec n) (m : Bit) {i : Nat} (hi : i < n) :
    elem (flippedBy b m) i = (elem b i ^^ m) := by
  cases m with
  | false => exact (Bool.xor_false _).symm
  | true => exact (elem_not b hi).trans (Bool.xor_true _).symm

theorem uval_not (b : BitVec n) : uval (~~~b) = 2 ^ n - 1 - uval b := by
  rw [uval_eq_toNat, uval_eq_toNat, BitVec.toNat_not]

/-- Two's complement: the complement of a vector is one less than its negative. -/
theorem sval_not (b : BitVec n) (hn : 1 ≤ n) : sval (~~~b) = -1 - sval b := by
  have hu : (uval (~~~b) : Int) = 2 ^ n - 1 - uval b := by
    have hb := uval_lt b
    have hnot := uval_not b
    zify [Nat.one_le_two_pow, Nat.le_sub_one_of_lt hb] at hnot
    exact hnot
  rw [sval_eq _ hn, sval_eq b hn, hu, elem_not b hn, Gates.toNat_not]
  cases elem b 0 <;> simp <;> ring

/-- R103's target: conditioning B and injecting M adds or subtracts its signed value. -/
theorem signedTarget_eq (a b : BitVec n) (m : Bit) (hn : 1 ≤ n) :
    sval a + sval (flippedBy b m) + (m.toNat : Int) = signedTarget a b m := by
  cases m with
  | false => simp [flippedBy, signedTarget]
  | true =>
    simp only [flippedBy, signedTarget, if_true, sval_not b hn, Bool.toNat_true]
    omega

/-- A less itself: of `A[i]` and `¬A[i]` one is 1, so with the carry every position sums to 2. -/
theorem ripplesTo_self_sub (a : BitVec n) : RipplesTo a (flippedBy a true) true 0 (BitVec.allOnes n) := by
  intro i hi
  have hzero : elem (0 : BitVec n) i = false := by rw [elem_eq _ hi]; exact BitVec.getLsbD_zero
  rw [carryInto_allOnes hi, elem_allOnes hi, elem_flippedBy a true hi, hzero]
  cases elem a i <;> rfl

end Operands

/-! ### Input words and outputs -/

section Words

variable {n : Nat} (a b : BitVec n)

/-- The word of mode 0: B's field below A's, and nothing above them. -/
theorem pattern_value_zero : (BitVec.ofBool false ++ a ++ b).toNat = uval a * 2 ^ n + uval b := by
  rw [pattern_value, Bool.toNat_false, Nat.zero_mul, Nat.zero_add]

/-- The word of mode 1, M at the top position. -/
theorem pattern_value_one :
    (BitVec.ofBool true ++ a ++ b).toNat = 2 ^ (n + n) + uval a * 2 ^ n + uval b := by
  rw [pattern_value, Bool.toNat_true, Nat.one_mul]

end Words

/-- An instruction gives the outputs that it evaluates to under the direct strategy. -/
theorem gives_of_outputs {i : Instr} {o : Output} (h : outputsOf .direct i = o) : Gives i o :=
  (gives_iff .direct i o).2 h

/-! ### The values of a ripple -/

section Values

variable {n : Nat} {a x s c : BitVec n} {cin : Bit}

/-- R97 at the MSB: the value of the sum with COUT above it. -/
theorem unsigned_value (h : RipplesTo a x cin s c) (hn : 1 ≤ n) :
    uval s + 2 ^ n * (carryOut c).toNat = uval a + uval x + cin.toNat := by
  have ht := tailTotal_eq_sum_carry h (i := 0) hn
  rw [tailTotal, uval_tailFrom_zero, uval_tailFrom_zero, uval_tailFrom_zero] at ht
  exact ht.symm

/-- A signed vector is the bits below its sign, less the sign's weight. -/
theorem sval_eq_tail (v : BitVec n) (hn : 1 ≤ n) :
    sval v = (uval (tailFrom v 1) : Int) - 2 ^ (n - 1) * ((elem v 0).toNat : Int) := by
  have hu := uval_tailFrom_succ v (i := 0) hn
  have hpow : (2 : Int) ^ n = 2 ^ (n - 1) * 2 := (pow_sub_one_mul (by omega) 2).symm
  rw [uval_tailFrom_zero, Nat.sub_zero] at hu
  rw [sval_eq v hn, hu, hpow]
  push_cast
  ring

/-- The signed value of a ripple is off by 2^N for a carry into the sign position without one out of it, or the
reverse. -/
theorem signed_value (h : RipplesTo a x cin s c) (hn : 2 ≤ n) :
    sval a + sval x + (cin.toNat : Int)
      = sval s + 2 ^ n * (((elem c 1).toNat : Int) - ((elem c 0).toNat : Int)) := by
  have hbelow := tailTotal_eq_sum_carry h (i := 1) hn
  have hsign := h 0 (by omega)
  have hpow : (2 : Int) ^ n = 2 ^ (n - 1) * 2 := (pow_sub_one_mul (by omega) 2).symm
  rw [carryInto, if_neg (by omega)] at hsign
  rw [tailTotal] at hbelow
  zify at hbelow hsign
  rw [sval_eq_tail a (by omega), sval_eq_tail x (by omega), sval_eq_tail s (by omega), hpow]
  linear_combination hbelow - 2 ^ (n - 1) * hsign

/-- The signed law for any ripple, V being the exclusive or of the two top carries. -/
theorem signedLaw (h : RipplesTo a x cin s c) (hn : 2 ≤ n) :
    SignedLaw n (sval a + sval x + (cin.toNat : Int)) (sval s) (elem c 0 ^^ elem c 1) := by
  have hvalue := signed_value h hn
  obtain ⟨hmin, hmax⟩ := Scope.sval_range s (by omega)
  have hpow : (2 : Int) ^ n = 2 ^ (n - 1) * 2 := (pow_sub_one_mul (by omega) 2).symm
  rw [SignedLaw, hvalue, hpow]
  generalize (2 : Int) ^ (n - 1) = half at hmin hmax ⊢
  -- The offset is 0 if the two top carries agree, and one full turn up or down if they differ.
  cases elem c 0 <;> cases elem c 1 <;> simp <;> omega

end Values

/-! ### The adder-subtractor as a ripple -/

section AddSub

variable (g : GateStrategy) {n : Nat} (a b : BitVec n) (m : Bit)

/-- R88, R89: an adder ripples A and the conditioned B with `CIN = M`. -/
theorem adder_ripplesTo :
    RipplesTo a (flippedBy b m) m (adderSubtractor (gatesOf g) a b m).sum
      (adderSubtractor (gatesOf g) a b m).carries := by
  obtain ⟨hsum, hcarries⟩ := adderSubtractor_ports g a b m
  rw [hsum, hcarries]
  exact chain_ripplesTo g a (flippedBy b m) m

/-- The signed law of R103 on an adder's own ports. -/
theorem adder_signedLaw (hn : 2 ≤ n) :
    SignedLaw n (signedTarget a b m) (sval (adderSubtractor (gatesOf g) a b m).sum)
      (adderSubtractor (gatesOf g) a b m).overflow := by
  rw [← signedTarget_eq a b m (by omega), adderSubtractor_overflow]
  exact signedLaw (adder_ripplesTo g a b m) hn

/-- An adder is any ripple of A and the conditioned B, with V read off its two top carries. -/
theorem adder_eq_of_ripplesTo {a b s c : BitVec n} {m : Bit} (h : RipplesTo a (flippedBy b m) m s c) :
    adderSubtractor (gatesOf g) a b m = ⟨s, c, elem c 0 ^^ elem c 1⟩ := by
  obtain ⟨hsum, hcarries⟩ := adderSubtractor_ports g a b m
  have hv := adderSubtractor_overflow g a b m
  rw [chain_eq_of_ripplesTo g h] at hsum hcarries
  rw [hcarries] at hv
  have hports := congr (congrArg₂ AdderPorts.mk hsum hcarries) hv
  exact hports

/-- A less itself is 0 with every carry 1, and its two top carries agree. -/
theorem adder_self_sub (hn : 2 ≤ n) :
    adderSubtractor (gatesOf g) a a true = ⟨0, BitVec.allOnes n, false⟩ := by
  rw [adder_eq_of_ripplesTo g (ripplesTo_self_sub a), elem_allOnes (by omega), elem_allOnes (by omega)]
  rfl

/-- The sum of equal operands is A shifted up by one, with A's most significant bit going out as the carry. -/
theorem adder_double (hn : 1 ≤ n) :
    uval (adderSubtractor (gatesOf g) a a false).sum = 2 * uval a % 2 ^ n ∧
    carryOut (adderSubtractor (gatesOf g) a a false).carries = elem a 0 := by
  have hvalue : _ = uval a + uval a := unsigned_value (adder_ripplesTo g a a false) hn
  have hs := uval_lt (adderSubtractor (gatesOf g) a a false).sum
  refine ⟨?sum, ?carry⟩
  case sum => rw [Nat.two_mul, ← hvalue, Nat.add_mul_mod_self_left, Nat.mod_eq_of_lt hs]
  case carry =>
    have hpow : 2 ^ n = 2 * 2 ^ (n - 1) := (mul_pow_sub_one (by omega) 2).symm
    have hhalf : uval a / 2 ^ (n - 1) < 2 := Nat.div_lt_of_lt_mul (by rw [Nat.mul_comm, ← hpow]; exact uval_lt a)
    apply eq_of_toNat_eq
    calc (carryOut (adderSubtractor (gatesOf g) a a false).carries).toNat
        = (uval a + uval a) / 2 ^ n := carryOut_eq_div (adder_ripplesTo g a a false) hn
      _ = uval a / 2 ^ (n - 1) := by rw [← Nat.two_mul, hpow, Nat.mul_div_mul_left _ _ Nat.two_pos]
      _ = (elem a 0).toNat := by rw [Scope.elem_value a hn, Nat.sub_zero, Nat.mod_eq_of_lt hhalf]

end AddSub

/-- The plain adder is the adder-subtractor in mode 0, whose conditioning changes nothing. -/
theorem plainAdder_eq (g : GateStrategy) {n : Nat} (a b : BitVec n) :
    plainAdder (gatesOf g) a b = ((adderSubtractor (gatesOf g) a b false).sum,
      carryOut (adderSubtractor (gatesOf g) a b false).carries) := by
  obtain ⟨hsum, hcarries⟩ := adderSubtractor_ports g a b false
  rw [hsum, hcarries]
  rfl

/-! ### The obligations -/

/-- Settles O27: the position of the listed ripple, with the carry into it read off the carry vector. -/
theorem chainIsFullAdderPerPosition : Obligations.ChainIsFullAdderPerPosition :=
  fun g _ a x cin _ => chain_position g a x cin

/-- Settles O28: a chain ripples, and the closed form is that of any ripple. -/
theorem chainClosedForm : Obligations.ChainClosedForm := by
  intro g n a x cin
  have h := chain_ripplesTo g a x cin
  exact ⟨fun i hi => ⟨carry_closedForm h hi, sum_closedForm h hi⟩, carryOut_eq_div h, carry_closedForm h (i := 1)⟩

/-- Settles O29: by the closed form a position reads T, and T only the operands from there to the LSB. -/
theorem carryDependsOnLowerPositionsOnly : Obligations.CarryDependsOnLowerPositionsOnly := by
  intro g n a a' x x' cin i hi hagree
  have ha : tailFrom a i = tailFrom a' i := tailFrom_congr fun j hij hj => (hagree j hij hj).1
  have hx : tailFrom x i = tailFrom x' i := tailFrom_congr fun j hij hj => (hagree j hij hj).2
  have htotal : tailTotal a x cin i = tailTotal a' x' cin i := by rw [tailTotal, ha, hx, tailTotal]
  exact ripplesTo_congr (chain_ripplesTo g a x cin) (chain_ripplesTo g a' x' cin) hi htotal

/-- Settles O30: the chain's ripple at width 8; adding all ones and a carry-in passes A on. -/
theorem chain8Rule : Obligations.Chain8Rule := by
  refine ⟨fun cin a x => ⟨?word, _, _, Gates.gives_directOutputs _, chain_ripplesTo .direct a x cin,
      Encoding.append_uval _ _⟩,
    fun a => ?passes, gives_of_outputs rfl, rfl, faultsExactlyOnBadInput rfl⟩
  case word => exact congrArg (InputWord.mk _) (pattern_value cin a x)
  case passes =>
    have hchain := chain_eq_of_ripplesTo .direct (ripplesTo_allOnes a)
    exact gives_of_outputs (congrArg (fun r : ChainPorts 8 => Output.chain8 r.carries r.sum) hchain)

/-- Settles O31: as O30 at width 16, the longest ripple by evaluation. -/
theorem chain16Rule : Obligations.Chain16Rule := by
  refine ⟨fun cin a x => ⟨?word, _, _, Gates.gives_directOutputs _, chain_ripplesTo .direct a x cin,
      Encoding.append_uval _ _⟩,
    gives_of_outputs rfl, gives_of_outputs rfl, faultsExactlyOnBadInput rfl⟩
  case word => exact congrArg (InputWord.mk _) (pattern_value cin a x)

/-- Settles O32: the conditioned operand is B flipped by M, on which the adder's ports are the chain's. -/
theorem adderIsConditionedChain : Obligations.AdderIsConditionedChain := by
  intro g n a b m
  obtain ⟨hsum, hcarries⟩ := adderSubtractor_ports g a b m
  have hx := conditioned_eq g b m
  refine ⟨fun i hi => ?bits, hx, ?sum, ?carries, rfl, rfl⟩
  case bits => rw [hx, elem_flippedBy b m hi, gatesOf_xor]
  case sum => rw [hsum, hx]
  case carries => rw [hcarries, hx]

/-- Settles O33: mode 0 is the chain on B itself, which is the plain adder; the instructions give its ports. -/
theorem plainAdderIsModeZero : Obligations.PlainAdderIsModeZero := by
  refine ⟨fun g n a b => ?ports, fun g a b => ?add8, fun g a b => ?add16⟩
  case ports =>
    obtain ⟨hsum, hcarries⟩ := adderSubtractor_ports g a b false
    exact ⟨hsum, hcarries, plainAdder_eq g a b⟩
  case add8 =>
    rw [plainAdder_eq]
    exact ⟨_, _, (gives_iff g _ _).2 rfl, rfl⟩
  case add16 =>
    rw [plainAdder_eq]
    exact ⟨_, _, (gives_iff g _ _).2 rfl, rfl⟩

/-- Settles O34: the value of the ripple with carry-in 0; at width 0 every value is 0. -/
theorem unsignedAdditionLaw : Obligations.UnsignedAdditionLaw := by
  intro g n a b
  have hlaw : uval (adderSubtractor (gatesOf g) a b false).sum
      + 2 ^ n * (carryOut (adderSubtractor (gatesOf g) a b false).carries).toNat = uval a + uval b := by
    cases n with
    | zero => simp [uval, weightedSum, carryOut, elem]
    | succ n => exact unsigned_value (adder_ripplesTo g a b false) (Nat.le_add_left 1 n)
  exact ⟨hlaw, hlaw⟩

/-- Settles O35: the value of the ripple on the complement of B with carry-in 1; the difference is the sum less the
2^N that COUT does not cancel, so COUT is 1 exactly if nothing is borrowed. -/
theorem unsignedSubtractionLaw : Obligations.UnsignedSubtractionLaw := by
  intro g n a b hn
  have hlaw := unsigned_value (adder_ripplesTo g a b true) hn
  rw [flippedBy, if_pos rfl, uval_not, Bool.toNat_true] at hlaw
  have hs := uval_lt (adderSubtractor (gatesOf g) a b true).sum
  have ha := uval_lt a
  have hb := uval_lt b
  refine ⟨hlaw, ?difference, ?borrow⟩
  case difference =>
    have hwrap : (uval a : Int) - uval b = uval (adderSubtractor (gatesOf g) a b true).sum
        + 2 ^ n * ((carryOut (adderSubtractor (gatesOf g) a b true).carries).toNat - 1) := by
      zify [Nat.one_le_two_pow, Nat.le_sub_one_of_lt hb] at hlaw
      linear_combination -hlaw
    rw [hwrap, Int.add_mul_emod_self_left, Int.emod_eq_of_lt (Int.natCast_nonneg _) (by exact_mod_cast hs)]
  case borrow =>
    cases hcout : carryOut (adderSubtractor (gatesOf g) a b true).carries <;> simp [hcout] at hlaw ⊢ <;> omega

/-- Settles O36: the adder's ripple and laws at width 8 in mode 0, and the fixed operands by evaluation. -/
theorem add8Rule : Obligations.Add8Rule := by
  refine ⟨fun a b => ⟨?word, _, _, _, Gates.gives_directOutputs _, adder_ripplesTo .direct a b false,
      adderSubtractor_overflow .direct a b false, rfl, ?unsigned, adder_signedLaw .direct a b false (by decide)⟩,
    fun a => ⟨_, _, _, Gates.gives_directOutputs _, adder_double .direct a (by decide)⟩,
    gives_of_outputs rfl, gives_of_outputs rfl, gives_of_outputs rfl, gives_of_outputs rfl, gives_of_outputs rfl,
    rfl, faultsExactlyOnBadInput rfl⟩
  case word => exact congrArg (InputWord.mk _) (pattern_value_zero a b)
  case unsigned => exact (unsignedAdditionLaw .direct 8 a b).1

/-- Settles O37: as O36 in mode 1, with A - A for every A. -/
theorem sub8Rule : Obligations.Sub8Rule := by
  refine ⟨fun a b => ?laws, fun a => ?self,
    gives_of_outputs rfl, gives_of_outputs rfl, gives_of_outputs rfl, gives_of_outputs rfl, gives_of_outputs rfl,
    rfl, faultsExactlyOnBadInput rfl⟩
  case laws =>
    obtain ⟨_, hdifference, hborrow⟩ := unsignedSubtractionLaw .direct 8 a b (by decide)
    exact ⟨congrArg (InputWord.mk _) (pattern_value_one a b), _, _, _, Gates.gives_directOutputs _,
      adder_ripplesTo .direct a b true, adderSubtractor_overflow .direct a b true, rfl, hdifference, hborrow,
      adder_signedLaw .direct a b true (by decide)⟩
  case self =>
    have hports := adder_self_sub .direct a (by decide)
    exact gives_of_outputs (congrArg (fun r : AdderPorts 8 => Output.rca8 r.overflow r.carries r.sum) hports)

/-- Settles O38: as O36 at width 16. -/
theorem add16Rule : Obligations.Add16Rule := by
  refine ⟨fun a b => ⟨?word, _, _, _, Gates.gives_directOutputs _, adder_ripplesTo .direct a b false,
      adderSubtractor_overflow .direct a b false, rfl, ?unsigned, adder_signedLaw .direct a b false (by decide)⟩,
    gives_of_outputs rfl, gives_of_outputs rfl, gives_of_outputs rfl, rfl, faultsExactlyOnBadInput rfl⟩
  case word => exact congrArg (InputWord.mk _) (pattern_value_zero a b)
  case unsigned => exact (unsignedAdditionLaw .direct 16 a b).1

/-- Settles O39: as O37 at width 16, and the signed values of the source's example by evaluation. -/
theorem sub16Rule : Obligations.Sub16Rule := by
  refine ⟨fun a b => ?laws, fun a => ?self,
    gives_of_outputs rfl, gives_of_outputs rfl, gives_of_outputs rfl, gives_of_outputs rfl, rfl,
    rfl, rfl, rfl, faultsExactlyOnBadInput rfl⟩
  case laws =>
    obtain ⟨_, hdifference, hborrow⟩ := unsignedSubtractionLaw .direct 16 a b (by decide)
    exact ⟨congrArg (InputWord.mk _) (pattern_value_one a b), _, _, _, Gates.gives_directOutputs _,
      adder_ripplesTo .direct a b true, adderSubtractor_overflow .direct a b true, rfl, hdifference, hborrow,
      adder_signedLaw .direct a b true (by decide)⟩
  case self =>
    have hports := adder_self_sub .direct a (by decide)
    exact gives_of_outputs (congrArg (fun r : AdderPorts 16 => Output.rca16 r.overflow r.carries r.sum) hports)

end Sys2Proof.RippleCarry
end

section
/-! PROOFS. The overflow detector (44_overflow.md R99 to R104): OVF8 and OVF16 on their words, V of an adder as the
detector's V, the signed arithmetic law, and the carry rule as the operand-sign form on the conditioned sign. -/

namespace Sys2Proof.OverflowDetection

open Sys2Proof Sys2Proof.Machine

/-! ### The detector's input word -/

section Word

variable {n : Nat} (c : BitVec n)

/-- The carry vector is the whole word of a detector (R56), so `C[i]` stands at position N-1-i. -/
theorem carry_position {i : Nat} (hi : i < n) : elem c i = wordBit c.toNat (n - 1 - i) := by
  rw [← Encoding.elem_lowField c.toNat hi, Encoding.wordField_self]

/-- V read off the word: the exclusive or of its two highest positions. -/
theorem topCarries_xor_eq_wordBits (hn : 2 ≤ n) :
    (elem c 0 ^^ elem c 1) = (wordBit c.toNat (n - 1) ^^ wordBit c.toNat (n - 2)) := by
  rw [carry_position c (i := 0) (by omega), carry_position c (i := 1) (by omega)]
  rfl

end Word

/-! ### What the detectors give -/

theorem ovf8_gives (c : BitVec 8) : Gives (.ovf8 c) (.ovf (elem c 0 ^^ elem c 1)) :=
  RippleCarry.gives_of_outputs (congrArg Output.ovf (overflowDetector_eq .direct c))

theorem ovf16_gives (c : BitVec 16) : Gives (.ovf16 c) (.ovf (elem c 0 ^^ elem c 1)) :=
  RippleCarry.gives_of_outputs (congrArg Output.ovf (overflowDetector_eq .direct c))

/-- V at either width as the word shows it, and the corner case of R100 and R101 without overflow. -/
theorem detector_gives {n : Nat} {c : BitVec n} {i : Instr} (hn : 2 ≤ n)
    (h : Gives i (.ovf (elem c 0 ^^ elem c 1))) :
    Gives i (.ovf (wordBit c.toNat (n - 1) ^^ wordBit c.toNat (n - 2))) ∧
    (elem c 0 = elem c 1 → Gives i (.ovf false)) := by
  refine ⟨topCarries_xor_eq_wordBits c hn ▸ h, fun hagree => ?agree⟩
  case agree => rwa [hagree, Bool.xor_self] at h

/-! ### The operand-sign form -/

/-- A full adder's carry-out differs from its carry-in exactly if its operand bits agree and its sum is not that
bit. Agreeing operand bits are the carry-out and leave the carry-in as the sum; differing ones pass the carry-in on. -/
theorem carry_xor_carryIn_iff {a x cin s cout : Bit}
    (h : a.toNat + x.toNat + cin.toNat = 2 * cout.toNat + s.toNat) :
    (cout ^^ cin) = true ↔ a = x ∧ s ≠ a := by
  have hs := Bool.toNat_le s
  have hcin := Bool.toNat_le cin
  by_cases hax : a = x
  case pos =>
    subst hax
    obtain rfl : cout = a := RippleCarry.eq_of_toNat_eq (by omega)
    obtain rfl : s = cin := RippleCarry.eq_of_toNat_eq (by omega)
    rw [bne_iff_ne, and_iff_right rfl, ne_comm]
  case neg =>
    have hone : a.toNat + x.toNat = 1 := by
      rw [Bool.eq_not_of_ne hax, Gates.toNat_not]
      have hx := Bool.toNat_le x
      omega
    obtain rfl : cout = cin := RippleCarry.eq_of_toNat_eq (by omega)
    rw [Bool.xor_self]
    exact iff_of_false Bool.false_ne_true fun ⟨hagree, _⟩ => hax hagree

/-- R104 for any ripple: `C[1]` is the carry into the sign position and `C[0]` the one out of it. -/
theorem topCarries_xor_iff {n : Nat} {a x s c : BitVec n} {cin : Bit} (h : RipplesTo a x cin s c) (hn : 2 ≤ n) :
    (elem c 0 ^^ elem c 1) = true ↔ elem a 0 = elem x 0 ∧ elem s 0 ≠ elem a 0 := by
  have hsign := h 0 (by omega)
  rw [carryInto, if_neg (by omega)] at hsign
  exact carry_xor_carryIn_iff hsign

/-- A difference above the signed range overflows: the third clause of the signed law. -/
theorem sub_overflow_of_le (g : GateStrategy) {n : Nat} {a b : BitVec n} (hn : 2 ≤ n)
    (h : 2 ^ (n - 1) ≤ sval a - sval b) : (adderSubtractor (gatesOf g) a b true).overflow = true := by
  obtain ⟨_, _, habove, _⟩ := RippleCarry.adder_signedLaw g a b true hn
  exact (habove h).1

/-! ### The obligations -/

/-- Settles O44: the signed law of an adder's ripple on the conditioned operand, which adds up to T. -/
theorem signedArithmeticLaw : Obligations.SignedArithmeticLaw := fun g _ a b m hn =>
  ⟨RippleCarry.signedTarget_eq a b m (by omega), RippleCarry.adder_signedLaw g a b m hn⟩

/-- Settles O45: an adder ripples A and the conditioned B, so R104 is the full adder at its sign position; 0 - (-128)
is 128, above the signed range, while the signs of A and B differ. -/
theorem overflowIsSignFormOnConditionedOperand : Obligations.OverflowIsSignFormOnConditionedOperand :=
  ⟨fun g _ a b m hn =>
    ⟨topCarries_xor_iff (RippleCarry.adder_ripplesTo g a b m) hn, adderSubtractor_overflow g a b m⟩,
    fun g => ⟨sub_overflow_of_le g (by decide) (by decide), by decide⟩⟩

/-- Settles O40: the detector's closed form names the two carries only. -/
theorem detectorReadsTwoCarries : Obligations.DetectorReadsTwoCarries := by
  intro g n c c' _
  refine ⟨overflowDetector_eq g c, fun h0 h1 => ?agree⟩
  case agree => rw [overflowDetector_eq, overflowDetector_eq, h0, h1]

/-- Settles O41: the word is the carry vector's number, and V its two highest positions. -/
theorem ovf8Rule : Obligations.Ovf8Rule :=
  ⟨fun c => ⟨congrArg (InputWord.mk _) (uval_eq_toNat c).symm, fun _ => carry_position c, ovf8_gives c,
      detector_gives (by decide) (ovf8_gives c)⟩,
    ovf8_gives 0x80, ovf8_gives 0x83, RippleCarry.faultsExactlyOnBadInput rfl⟩

/-- Settles O42: as O41 at width 16. -/
theorem ovf16Rule : Obligations.Ovf16Rule :=
  ⟨fun c => ⟨congrArg (InputWord.mk _) (uval_eq_toNat c).symm, fun _ => carry_position c, ovf16_gives c,
      detector_gives (by decide) (ovf16_gives c)⟩,
    ovf16_gives 0x8000, ovf16_gives 0xFFFF, RippleCarry.faultsExactlyOnBadInput rfl⟩

/-- Settles O43: an adder's V is by definition the detector on its carries, and that is what OVF gives on them. -/
theorem adderOverflowIsDetectorOnItsCarries : Obligations.AdderOverflowIsDetectorOnItsCarries :=
  ⟨fun a b => ⟨⟨_, _, _, Gates.gives_directOutputs (.add8 a b), Gates.gives_directOutputs (.ovf8 _)⟩,
      ⟨_, _, _, Gates.gives_directOutputs (.sub8 a b), Gates.gives_directOutputs (.ovf8 _)⟩⟩,
    fun a b => ⟨⟨_, _, _, Gates.gives_directOutputs (.add16 a b), Gates.gives_directOutputs (.ovf16 _)⟩,
      ⟨_, _, _, Gates.gives_directOutputs (.sub16 a b), Gates.gives_directOutputs (.ovf16 _)⟩⟩⟩

end Sys2Proof.OverflowDetection
end

section
/-! PROOFS. Faults at the boundary of a vector component (60_exceptions.md R106 to R112): a wrong length, and the first
element that is not a bit, each with what it records. -/

namespace Sys2Proof.Exceptions

open Sys2Proof Sys2Proof.Machine

/-! ### The search for the first element that is not a bit -/

section Search

variable {p : PortName} {e : Int}

/-- The search inside a port passes over bits and stops at an element that is none, with its source index. -/
theorem firstNonBitFrom_eq_some (he : isBit e = false) (start : Nat) {es : List Int} {i : Nat}
    (hat : es[i]? = some e) (hbefore : ∀ i' < i, ∀ e', es[i']? = some e' → isBit e' = true) :
    firstNonBitFrom p start es = some (.invalidBitValue p (start + i) e) := by
  induction es generalizing start i with
  | nil => simp at hat
  | cons x xs ih =>
    cases i with
    | zero =>
      obtain rfl : x = e := by simpa using hat
      simp [firstNonBitFrom, he]
    | succ i =>
      have hx : isBit x = true := hbefore 0 i.succ_pos x rfl
      have hxs : firstNonBitFrom p (start + 1) xs = some (.invalidBitValue p (start + 1 + i) e) :=
        ih (start + 1) hat fun i' hi' e' h => hbefore (i' + 1) (Nat.succ_lt_succ hi') e' h
      rw [firstNonBitFrom, if_pos hx, hxs, Nat.add_assoc, Nat.add_comm 1 i]

/-- The search over the ports passes over ports of bits and reports what it finds in the first other one. -/
theorem firstNonBit_eq_some {f : Fault} {names : List PortName} {ports : List (List Int)} {k : Nat} {es : List Int}
    (hname : names[k]? = some p) (hport : ports[k]? = some es) (hfound : firstNonBitFrom p 0 es = some f)
    (hbefore : ∀ k' < k, ∀ q, ports[k']? = some q → q.all isBit = true) :
    firstNonBit names ports = some f := by
  induction k generalizing names ports with
  | zero =>
    match names, ports with
    | q :: ps, x :: rest =>
      obtain rfl : q = p := Option.some.inj hname
      obtain rfl : x = es := Option.some.inj hport
      rw [firstNonBit, hfound]
  | succ k ih =>
    match names, ports with
    | q :: ps, x :: rest =>
      have hx : firstNonBitFrom q 0 x = none :=
        (firstNonBitFrom_eq_none q 0 x).2 (hbefore 0 k.succ_pos x rfl)
      rw [firstNonBit, hx]
      exact ih hname hport fun k' hk' => hbefore (k' + 1) (Nat.succ_lt_succ hk')

/-- R112 over all ports: with every earlier element a bit, the search reports this port, index and value. -/
theorem firstNonBit_eq_invalidBitValue (he : isBit e = false) {names : List PortName} {ports : List (List Int)}
    {k i : Nat} (hname : names[k]? = some p) (hat : (ports[k]?).bind (fun q => q[i]?) = some e)
    (hbefore : ∀ (k' i' : Nat) (e' : Int), k' < k ∨ (k' = k ∧ i' < i) →
      (ports[k']?).bind (fun q => q[i']?) = some e' → isBit e' = true) :
    firstNonBit names ports = some (.invalidBitValue p i e) := by
  obtain ⟨es, hport, helem⟩ := Option.bind_eq_some_iff.1 hat
  have hfound : firstNonBitFrom p 0 es = some (.invalidBitValue p i e) := by
    rw [firstNonBitFrom_eq_some he 0 helem fun i' hi' e' h =>
      hbefore k i' e' (.inr ⟨rfl, hi'⟩) (Option.bind_eq_some_iff.2 ⟨es, hport, h⟩), Nat.zero_add]
  refine firstNonBit_eq_some hname hport hfound fun k' hk' q hq => List.all_eq_true.2 fun x hx => ?earlier
  case earlier =>
    obtain ⟨i', hi'⟩ := List.mem_iff_getElem?.1 hx
    exact hbefore k' i' x (.inl hk') (Option.bind_eq_some_iff.2 ⟨q, hq, hi'⟩)

end Search

/-! ### The faults of the wrapper -/

section Wrapper

variable {a : Application} {n : Nat}

/-- R108 before R107: with every port presented, a wrong length is all the wrapper looks at. -/
theorem validate_widthMismatch (hwidth : a.component.vectorWidth = some n) (hpresent : a.everyPortPresent = true)
    (hfull : a.everyPortFull = false) :
    validate a = .fault (.widthMismatch n (vectorLengths a.component a.ports)) := by
  have hports : ¬ a.ports.length ≠ a.component.ports.length := not_not.2 (beq_iff_eq.1 hpresent)
  have hfits : ¬ lengthsFit a.component a.ports = true := Bool.eq_false_iff.1 hfull
  rw [validate, if_neg hports, hwidth]
  exact if_neg hfits

/-- With the lengths right, the wrapper faults with what the search for a non-bit finds. -/
theorem validate_fault_of_firstNonBit {f : Fault} (hwidth : a.component.vectorWidth = some n)
    (hfull : a.everyPortFull = true) (hfound : firstNonBit (a.component.ports.map Prod.fst) a.ports = some f) :
    validate a = .fault f := by
  have hports : ¬ a.ports.length ≠ a.component.ports.length := not_not.2 (everyPortFull_present hfull)
  have hfits : lengthsFit a.component a.ports = true := hfull
  rw [validate, if_neg hports, hwidth]
  dsimp only
  rw [if_pos hfits, hfound]

theorem step_of_validate_fault {f : Fault} (s : State) (h : validate a = .fault f) : step (s.drive a) = .fault f :=
  RippleCarry.step_of_fetch_fault ((fetch_drive s a).trans h)

end Wrapper

/-! ### A wrong length, by the shape of the ports -/

section Lengths

variable {c : Component} {p q r : PortName} {n : Nat} (s : State) {k a b : List Int}

/-- An adder or a chain: a one-bit port, whose length is not recorded, and two operands (R108). -/
theorem step_widthMismatch_operands (hports : c.ports = [(p, 1), (q, n), (r, n)]) (hn : n ≠ 1)
    (hwidth : c.vectorWidth = some n) (hbad : k.length ≠ 1 ∨ a.length ≠ n ∨ b.length ≠ n) :
    step (s.drive ⟨c, [k, a, b]⟩) = .fault (.widthMismatch n [a.length, b.length]) := by
  have hpresent : (Application.mk c [k, a, b]).everyPortPresent = true := by
    simp [Application.everyPortPresent, hports]
  have hfull : (Application.mk c [k, a, b]).everyPortFull = false := by
    simpa [Application.everyPortFull, hports, imp_iff_not_or] using hbad
  have hlengths : vectorLengths c [k, a, b] = [a.length, b.length] := by simp [vectorLengths, hports, hn]
  exact step_of_validate_fault s (hlengths ▸ validate_widthMismatch hwidth hpresent hfull)

/-- A detector: one operand. -/
theorem step_widthMismatch_operand (hports : c.ports = [(p, n)]) (hn : n ≠ 1) (hwidth : c.vectorWidth = some n)
    (hbad : a.length ≠ n) : step (s.drive ⟨c, [a]⟩) = .fault (.widthMismatch n [a.length]) := by
  have hpresent : (Application.mk c [a]).everyPortPresent = true := by
    simp [Application.everyPortPresent, hports]
  have hfull : (Application.mk c [a]).everyPortFull = false := by
    simpa [Application.everyPortFull, hports] using hbad
  have hlengths : vectorLengths c [a] = [a.length] := by simp [vectorLengths, hports, hn]
  exact step_of_validate_fault s (hlengths ▸ validate_widthMismatch hwidth hpresent hfull)

end Lengths

/-! ### The obligations -/

/-- Settles O46: each component's ports have one of the two shapes. -/
theorem widthMismatchRule : Obligations.WidthMismatchRule := by
  intro s k a b
  refine ⟨fun hbad => ⟨?adder8, ?chain8⟩, fun hbad => ⟨?adder16, ?chain16⟩, fun hbad => ?detector8,
    fun hbad => ?detector16, fun _ _ => rfl⟩
  case adder8 | chain8 | adder16 | chain16 => exact step_widthMismatch_operands s rfl (by decide) rfl hbad
  case detector8 | detector16 => exact step_widthMismatch_operand s rfl (by decide) rfl hbad

/-- Settles O47: the lengths are tested first, and then the search stops at the first element that is not a bit. -/
theorem invalidBitValueRule : Obligations.InvalidBitValueRule := by
  refine ⟨fun s a n hwidth hpresent hfull => ?lengths,
    fun s a n k i port e hwidth hfull hname hat he hbefore => ?element, fun _ _ _ => rfl, by decide⟩
  case lengths => exact ⟨_, step_of_validate_fault s (validate_widthMismatch hwidth hpresent hfull)⟩
  case element =>
    have hfound : firstNonBit (a.component.ports.map Prod.fst) a.ports = some (.invalidBitValue port i e) :=
      firstNonBit_eq_invalidBitValue he (List.getElem?_map ▸ hname) hat hbefore
    exact step_of_validate_fault s (validate_fault_of_firstNonBit hwidth hfull hfound)

end Sys2Proof.Exceptions
end

section
/-! PROOFS. Reset, the host interface and structural depth (70_reset_and_hazards.md R124 to R133): the outputs are those
of the word being driven, sampling reads them, a host program is its applications, and the gate levels of the adder. -/

namespace Sys2Proof.ResetAndHazards

open Sys2Proof Sys2Proof.Machine

/-! ### The outputs are those of the driven word -/

/-- Where no output is defined there is nothing that could be of another word. -/
theorem settledOnDriven_of_no_outputs {s : State} (h : s.outputs = none) : SettledOnDriven s := by
  intro o ho
  rw [h] at ho
  cases ho

/-- A completed step writes what the word it has fetched gives in every state, and leaves that word driven. -/
theorem settledOnDriven_of_step {s t : State} (h : step s = .next t) : SettledOnDriven t := by
  obtain ⟨iw, i, hfetch, hdecode, rfl⟩ := step_next h
  intro o ho
  have hgives : Gives i o := (gives_iff s.gateStrategy i o).2 (Option.some.inj ho)
  exact ⟨iw, i, (fetch_outputs s _).trans hfetch, hdecode, hgives⟩

/-! ### Sampling after a completed application -/

/-- An accepted and decoded application completes with the outputs its instruction gives. -/
theorem step_of_gives {s : State} {iw : InputWord} {i : Instr} {o : Output} (hfetch : fetch s = .next iw)
    (hdecode : decode iw.component iw.bits = .ok i) (hgives : Gives i o) :
    step s = .next { s with outputs := some o } :=
  (Scope.step_of_decoded hfetch hdecode).trans (hgives s)

/-! ### A host program, one application at a time -/

section Programs

variable {h : HostDriver} {samples : List Output} {a : Application} {k : Nat} {s : State}

theorem runProgram_of_done (hdone : h samples = none) (k : Nat) (s : State) :
    runProgram h k s samples = .normal samples := by
  cases k <;> simp only [runProgram, hdone]

/-- An application that completes hands its state and its sample to the rest of the program. -/
theorem runProgram_succ_of_next {t : State} {o : Output} (happly : h samples = some a)
    (hnext : applyAndSample s a = .next (t, o)) :
    runProgram h (k + 1) s samples = runProgram h k t (samples ++ [o]) := by
  simp only [runProgram, happly, hnext]

theorem runProgram_succ_of_fault {r : Fault} (happly : h samples = some a) (hfault : applyAndSample s a = .fault r) :
    runProgram h (k + 1) s samples = .faulted r := by
  simp only [runProgram, happly, hfault]

theorem runProgram_succ_of_refused {r : Refusal} (happly : h samples = some a)
    (hrefused : applyAndSample s a = .refused r) : runProgram h (k + 1) s samples = .refused r := by
  simp only [runProgram, happly, hrefused]

/-- R49 along a program: what the next application reports does not depend on the state it is handed. -/
theorem runProgram_eq_endOfHost (h : HostDriver) (k : Nat) (s s' : State) (samples : List Output) :
    runProgram h k s samples = endOfHost h (report s') k samples := by
  induction k generalizing s samples with
  | zero => cases happly : h samples <;> simp [runProgram, endOfHost, happly]
  | succ k ih =>
    cases happly : h samples with
    | none => simp only [runProgram_of_done happly, endOfHost, happly, Option.map_none]
    | some a =>
      have hreport : report s' a = report s a := Memory.reportDependsOnInputsOnly s' s a
      rw [endOfHost, happly, Option.map_some, hreport, report]
      cases hend : applyAndSample s a with
      | next p =>
        obtain ⟨t, o⟩ := p
        exact (runProgram_succ_of_next happly hend).trans (ih t (samples ++ [o]))
      | fault r => exact runProgram_succ_of_fault happly hend
      | refused r => exact runProgram_succ_of_refused happly hend

/-- A program that has ended within a bound ends the same within every larger one. -/
theorem runProgram_of_larger_bound {k' : Nat} (hk : k ≤ k') (hended : ∀ l, runProgram h k s samples ≠ .running l) :
    runProgram h k' s samples = runProgram h k s samples := by
  induction k generalizing k' s samples with
  | zero =>
    cases happly : h samples with
    | none => rw [runProgram_of_done happly, runProgram_of_done happly]
    | some a => exact absurd (by simp only [runProgram, happly]) (hended samples)
  | succ k ih =>
    obtain ⟨j, rfl⟩ : ∃ j, k' = j + 1 := Nat.exists_eq_add_of_le' (Nat.le_of_add_left_le hk)
    cases happly : h samples with
    | none => rw [runProgram_of_done happly, runProgram_of_done happly]
    | some a =>
      cases hend : applyAndSample s a with
      | next p =>
        rw [runProgram_succ_of_next happly hend] at hended
        rw [runProgram_succ_of_next happly hend, runProgram_succ_of_next happly hend,
          ih (Nat.le_of_succ_le_succ hk) hended]
      | fault r => rw [runProgram_succ_of_fault happly hend, runProgram_succ_of_fault happly hend]
      | refused r => rw [runProgram_succ_of_refused happly hend, runProgram_succ_of_refused happly hend]

/-- A straight-line host that holds one sample per application of `past` goes on with those of `todo`. -/
theorem endOfHost_straightLine (rep : Application → Host.Outcome Output Fault Refusal) (past todo : List Application)
    (hpast : samples.length = past.length) :
    endOfHost (straightLine (past ++ todo)) rep todo.length samples = endOfReports (todo.map rep) samples := by
  induction todo generalizing past samples with
  | nil => simp [endOfHost, endOfReports, straightLine, hpast]
  | cons a todo ih =>
    have happly : straightLine (past ++ a :: todo) samples = some a := by simp [straightLine, hpast]
    rw [List.length_cons, endOfHost, happly, Option.map_some, List.map_cons]
    cases rep a with
    | next o =>
      have hrest := ih (past ++ [a]) (samples := samples ++ [o]) (by simp [hpast])
      rwa [List.append_assoc] at hrest
    | fault r => rfl
    | refused r => rfl

end Programs

/-! ### Gate levels of the adder (R133) -/

section Levels

variable {n i : Nat}

/-- One position of the adder: its conditioned operand is at level 1 and its first half adder at level 2, so a carry-in
above that reaches the sum through one more gate and the carry-out through two. -/
theorem fullAdder_levels (c : Nat) : fullAdder levelGates 0 1 c = ⟨max 2 c + 1, max 2 c + 2⟩ := by
  simp only [fullAdder, halfAdder, levelGates, SumResult.mk.injEq]
  omega

/-- Along the ripple every position adds two levels. -/
theorem ripple_levels (n c : Nat) :
    ripple levelGates (List.replicate n 0) (List.replicate n 1) c
      = (List.range n).map fun k => ⟨max 2 c + 1 + 2 * k, max 2 c + 2 + 2 * k⟩ := by
  induction n generalizing c with
  | zero => rfl
  | succ n ih =>
    have hcarry : max 2 (max 2 c + 2) = max 2 c + 2 := by omega
    rw [List.replicate_succ, List.replicate_succ, ripple, fullAdder_levels, ih, hcarry, List.range_succ_eq_map,
      List.map_cons, List.map_map]
    congr 1
    refine List.map_congr_left fun k _ => ?_
    simp only [Function.comp_apply, SumResult.mk.injEq]
    omega

/-- The levels at source index i, which is position n - 1 - i of the ripple. -/
theorem adderLevels_at (hi : i < n) :
    (adderLevels n).reverse[i]? = some ⟨3 + 2 * (n - 1 - i), 4 + 2 * (n - 1 - i)⟩ := by
  have hlevels : adderLevels n = (List.range n).map fun k => ⟨3 + 2 * k, 4 + 2 * k⟩ := by
    rw [adderLevels, rippleAddSub, conditionOperand, List.map_replicate]
    exact ripple_levels n 0
  have hposition : n - 1 - i < n := by omega
  rw [hlevels, List.getElem?_reverse (by simpa using hi), List.length_map, List.length_range, List.getElem?_map,
    List.getElem?_range hposition]
  rfl

theorem carryLevel_eq (hi : i < n) : carryLevel n i = some (4 + 2 * (n - 1 - i)) := by
  rw [carryLevel, adderLevels_at hi]; rfl

theorem sumLevel_eq (hi : i < n) : sumLevel n i = some (3 + 2 * (n - 1 - i)) := by
  rw [sumLevel, adderLevels_at hi]; rfl

theorem carryLevel_zero (hn : 1 ≤ n) : carryLevel n 0 = some (2 * n + 2) := by
  rw [carryLevel_eq hn, Option.some.injEq]; omega

theorem sumLevel_zero (hn : 1 ≤ n) : sumLevel n 0 = some (2 * n + 1) := by
  rw [sumLevel_eq hn, Option.some.injEq]; omega

/-- V is one gate above `C[0]`, the deeper of its two carries. -/
theorem overflowLevel_eq (hn : 2 ≤ n) : overflowLevel n = some (2 * n + 3) := by
  rw [overflowLevel, carryLevel_zero (Nat.le_of_succ_le hn), carryLevel_eq hn]
  simp only [levelGates, Option.some.injEq]
  omega

end Levels

/-! ### The obligations -/

/-- Settles O11: the step writes the outputs of the very word it leaves driven, whatever was settled before. -/
theorem stepKeepsSettledOnDriven : Obligations.StepKeepsSettledOnDriven :=
  fun _ _ _ => settledOnDriven_of_step

/-- Settles O8: what is presented is well formed, and packing it gives the word back. -/
theorem drivenWordIsFetched : Obligations.DrivenWordIsFetched :=
  fun s _ _ => Encoding.fetch_driveWord s

/-- Settles O50: the reports do not depend on the state, a bound matters only until the end, and a straight-line host
applies its list in order. -/
theorem programIsItsApplications : Obligations.ProgramIsItsApplications :=
  ⟨runProgram_eq_endOfHost, fun _ _ _ _ _ => runProgram_of_larger_bound, fun as s s' =>
    (runProgram_eq_endOfHost _ _ s s' []).trans (endOfHost_straightLine (report s') [] as rfl)⟩

/-- Settles O54: the levels at every position, and their values at widths 8 and 16. -/
theorem structuralDepth : Obligations.StructuralDepth :=
  ⟨fun _ _ => carryLevel_eq, fun _ hn => ⟨carryLevel_zero hn, sumLevel_zero hn⟩, fun _ => overflowLevel_eq,
    carryLevel_zero (by decide), carryLevel_zero (by decide), sumLevel_zero (by decide), sumLevel_zero (by decide),
    overflowLevel_eq (by decide), overflowLevel_eq (by decide)⟩

/-- Settles O55: the step leaves the instruction's outputs on the ports, where the sample and the report read them. -/
theorem sampleReadsSettledOutputs : Obligations.SampleReadsSettledOutputs := by
  refine ⟨fun s o => (sample_next s o).2, fun s a iw i o hfetch hdecode hgives => ?completes,
    fun s c w i o hdecode hgives => ?word, fun _ _ _ => Memory.report_of_fault, fun _ _ _ => Memory.report_of_refused⟩
  case completes =>
    have hstep := step_of_gives hfetch hdecode hgives
    exact ⟨Memory.report_of_next hstep rfl, _, hstep, (sample_next _ o).2 rfl⟩
  case word =>
    have hfits : w < 2 ^ c.width := (Encoding.decode_eq_ok_iff.1 hdecode).1
    exact Memory.report_of_next (step_of_gives (Encoding.fetch_driveWord s hfits) hdecode hgives) rfl

/-- Settles O12: at reset and after a drive no output is defined. -/
theorem settledOnDrivenStarts : Obligations.SettledOnDrivenStarts :=
  ⟨settledOnDriven_of_no_outputs reset_outputs, fun s a => settledOnDriven_of_no_outputs (drive_outputs s a)⟩

end Sys2Proof.ResetAndHazards
end
